-- ==== Sys2Proof/Word.lean ====
section
/-! DEFINITION. The word and byte types of the lc3-rs CORE and the names of its eight general registers
(spec/00_scope.md R6, R8, R9; spec/10_state.md R15, R16). -/

namespace Sys2Proof

/-- A 16-bit word: registers, memory words, addresses and instruction words (R6, R9). `+` wraps modulo 65536. -/
abbrev Word := BitVec 16

/-- An 8-bit byte, the unit of the character I/O port and of a program image file (R12, R44). -/
abbrev Byte := BitVec 8

/-- The eight general registers R0 to R7 (R15). No instruction field can name anything else (R16). -/
inductive Reg where
  | r0 | r1 | r2 | r3 | r4 | r5 | r6 | r7
  deriving DecidableEq, Repr

end Sys2Proof
end

