-- ==== Sys2Proof/Syntax.lean ====
section
/-! DEFINITION. The instructions: one constructor per row of spec/opcode_table.json (spec/30_encoding.md R62, R64,
R65). Register fields are register names; immediates, offsets, the branch mask and the trap vector are the raw
fields of the word, at the width the format gives them (R48 to R59). Ignored bits (R63) are no operand. -/

namespace Sys2Proof

/-- An instruction of the CORE, in the order of the opcode table. -/
inductive Instr where
  /-- BR (R108): condition mask `nzp` and 9-bit PC offset. -/
  | br (nzp : BitVec 3) (offset9 : BitVec 9)
  /-- ADD, register mode (R96). -/
  | addReg (dr sr1 sr2 : Reg)
  /-- ADD, immediate mode (R97). -/
  | addImm (dr sr1 : Reg) (imm5 : BitVec 5)
  /-- LD (R101). -/
  | ld (dr : Reg) (offset9 : BitVec 9)
  /-- ST (R102): the DR field names the source. -/
  | st (sr : Reg) (offset9 : BitVec 9)
  /-- JSR (R109). -/
  | jsr (offset11 : BitVec 11)
  /-- JSRR (R110). -/
  | jsrr (baseR : Reg)
  /-- AND, register mode (R98). -/
  | andReg (dr sr1 sr2 : Reg)
  /-- AND, immediate mode (R99). -/
  | andImm (dr sr1 : Reg) (imm5 : BitVec 5)
  /-- LDR (R103). -/
  | ldr (dr baseR : Reg) (offset6 : BitVec 6)
  /-- STR (R104). -/
  | str (sr baseR : Reg) (offset6 : BitVec 6)
  /-- RTI (R113). -/
  | rti
  /-- NOT (R100). -/
  | not (dr sr1 : Reg)
  /-- LDI (R105). -/
  | ldi (dr : Reg) (offset9 : BitVec 9)
  /-- STI (R106). -/
  | sti (sr : Reg) (offset9 : BitVec 9)
  /-- JMP, and RET with BaseR = R7 (R111, R112). -/
  | jmp (baseR : Reg)
  /-- RES, the reserved opcode 13 (R114). -/
  | res
  /-- LEA (R107). -/
  | lea (dr : Reg) (offset9 : BitVec 9)
  /-- TRAP (R115): the 8-bit trap vector. -/
  | trap (trapvect8 : BitVec 8)
  deriving DecidableEq, Repr

end Sys2Proof
end

