-- ==== Sys2Proof/WellFormed.lean ====
section
/-! DEFINITION. Which instructions are well formed, and the assembly-level instructions with the range checks an
assembler must make on their operands (spec/30_encoding.md R66, R70 to R78). -/

namespace Sys2Proof

/-- Every instruction is well formed: "no encoding is illegal and none traps" (R66), and the width of a field is in its
type, so no value of `Instr` holds a field that its format cannot hold. One line per constructor, so that a new one
cannot be passed over. -/
def Instr.wellFormed : Instr → Bool
  | .br _ _ => true
  | .addReg _ _ _ => true
  | .addImm _ _ _ => true
  | .ld _ _ => true
  | .st _ _ => true
  | .jsr _ => true
  | .jsrr _ => true
  | .andReg _ _ _ => true
  | .andImm _ _ _ => true
  | .ldr _ _ _ => true
  | .str _ _ _ => true
  | .rti => true
  | .not _ _ => true
  | .ldi _ _ => true
  | .sti _ _ => true
  | .jmp _ => true
  | .res => true
  | .lea _ _ => true
  | .trap _ => true

/-- A PC-relative operand as assembly text writes it: a label, standing for the address it names (R71, R75), or the
offset itself as a decimal `#n`. R71 gives the label only; the second form is the one the examples of R101, R102 and R105
to R109 write (`LD R0, #-1` for 0x21FF), and that it means the offset field's value is DEDUCED from their words (log
entry 17). -/
inductive PcOperand where
  | label (address : Word)
  | offset (n : Int)
  deriving DecidableEq, Repr

/-- An instruction as assembly text writes it (R71 to R73, R78; log entry 14): immediates are decimal integers, a
PC-relative operand is a label or a decimal offset, a trap vector is a number. -/
inductive Source where
  | addReg (dr sr1 sr2 : Reg)
  | addImm (dr sr1 : Reg) (imm : Int)
  | andReg (dr sr1 sr2 : Reg)
  | andImm (dr sr1 : Reg) (imm : Int)
  | not (dr sr1 : Reg)
  | ld (dr : Reg) (target : PcOperand)
  | ldi (dr : Reg) (target : PcOperand)
  | lea (dr : Reg) (target : PcOperand)
  | st (sr : Reg) (target : PcOperand)
  | sti (sr : Reg) (target : PcOperand)
  | ldr (dr baseR : Reg) (offset : Int)
  | str (sr baseR : Reg) (offset : Int)
  /-- `BR` with the condition letters it is written with. -/
  | br (n z p : Bool) (target : PcOperand)
  | jsr (target : PcOperand)
  | jsrr (baseR : Reg)
  | jmp (baseR : Reg)
  | rti
  | res
  | trap (vector : Nat)
  /-- `RET`, which is `JMP R7` (R72). -/
  | ret
  /-- `NOP`, which is `BR` with nzp = 000 and offset 0 (R72). -/
  | nop
  /-- The trap names of R73. -/
  | getc | out | puts | inp | putsp | halt | inu16 | outu16
  deriving DecidableEq, Repr

/-- `n` is a value of an N-bit two's-complement field: `-2^(N-1) ≤ n < 2^(N-1)` (R60). -/
def fitsSigned (width : Nat) (n : Int) : Bool :=
  decide (-(2 ^ (width - 1) : Int) ≤ n) && decide (n < (2 ^ (width - 1) : Int))

/-- The offset an instruction at address `at_` encodes to name the label at `label`: `T - (A + 1)` (R75). -/
def labelOffset (at_ label : Word) : Word := label - (at_ + 1)

/-- The label is within reach of an N-bit PC offset: the offset fits its field (R75, R76). -/
def reaches (width : Nat) (at_ label : Word) : Bool := fitsSigned width (labelOffset at_ label).toInt

/-- A PC-relative operand, of an instruction at address `at_`, fits its N-bit field (R60, R75, R76). -/
def PcOperand.fits (width : Nat) (at_ : Word) : PcOperand → Bool
  | .label address => reaches width at_ address
  | .offset n => fitsSigned width n

/-- What an assembler must refuse, for an instruction at address `at_`: an immediate, an offset, a label or a trap
vector outside the range of its field (R60, R75, R76). -/
def Source.wellFormed (at_ : Word) : Source → Bool
  | .addReg _ _ _ => true
  | .addImm _ _ imm => fitsSigned 5 imm
  | .andReg _ _ _ => true
  | .andImm _ _ imm => fitsSigned 5 imm
  | .not _ _ => true
  | .ld _ target => target.fits 9 at_
  | .ldi _ target => target.fits 9 at_
  | .lea _ target => target.fits 9 at_
  | .st _ target => target.fits 9 at_
  | .sti _ target => target.fits 9 at_
  | .ldr _ _ offset => fitsSigned 6 offset
  | .str _ _ offset => fitsSigned 6 offset
  | .br _ _ _ target => target.fits 9 at_
  | .jsr target => target.fits 11 at_
  | .jsrr _ => true
  | .jmp _ => true
  | .rti => true
  | .res => true
  | .trap vector => decide (vector < 256)
  | .ret => true
  | .nop => true
  | .getc => true
  | .out => true
  | .puts => true
  | .inp => true
  | .putsp => true
  | .halt => true
  | .inu16 => true
  | .outu16 => true

end Sys2Proof
end

