-- ==== Sys2Proof/Decode.lean ====
section
/-! DEFINITION. The total 16-bit decoder, then the encoder written from the same format table, the opcode table's
masks, and the assembler of the spec's examples (spec/30_encoding.md R46 to R79). -/

namespace Sys2Proof

/-! ## Fields (R48 to R59) -/

/-- `v[lo+len-1 : lo]` (R8): the `len` bits of `w` from bit `lo` up. -/
def field (lo len : Nat) (w : Word) : BitVec len := w.extractLsb' lo len

/-- The register a 3-bit field selects: value n selects Rn (R16). -/
def Reg.ofField (f : BitVec 3) : Reg :=
  match f.toNat with
  | 0 => .r0
  | 1 => .r1
  | 2 => .r2
  | 3 => .r3
  | 4 => .r4
  | 5 => .r5
  | 6 => .r6
  | _ => .r7

/-- `op` = w[15:12] (R48). -/
def opField (w : Word) : BitVec 4 := field 12 4 w
/-- `DR` = w[11:9], the destination, or the source of a store (R49). -/
def drField (w : Word) : Reg := Reg.ofField (field 9 3 w)
/-- `nzp` = w[11:9] (R50). -/
def nzpField (w : Word) : BitVec 3 := field 9 3 w
/-- `long_flag` = w[11] (R51). -/
def longFlag (w : Word) : BitVec 1 := field 11 1 w
/-- `SR1`, also `BaseR` = w[8:6] (R52). -/
def sr1Field (w : Word) : Reg := Reg.ofField (field 6 3 w)
/-- `SR2` = w[2:0] (R53). -/
def sr2Field (w : Word) : Reg := Reg.ofField (field 0 3 w)
/-- `imm_flag` = w[5] (R54). -/
def immFlag (w : Word) : BitVec 1 := field 5 1 w
/-- `imm5` = w[4:0] (R55). -/
def imm5Field (w : Word) : BitVec 5 := field 0 5 w
/-- `offset6` = w[5:0] (R56). -/
def offset6Field (w : Word) : BitVec 6 := field 0 6 w
/-- `PCoffset9` = w[8:0] (R57). -/
def offset9Field (w : Word) : BitVec 9 := field 0 9 w
/-- `PCoffset11` = w[10:0] (R58). -/
def offset11Field (w : Word) : BitVec 11 := field 0 11 w
/-- `trapvect8` = w[7:0] (R59). -/
def trapvect8Field (w : Word) : BitVec 8 := field 0 8 w

/-! ## The decoder -/

/-- The instruction of opcode number `op` with the fields of `w` (R64), and the secondary decode of opcodes 1, 4 and 5
(R65). The last arm is opcode 15: an opcode is a 4-bit field. -/
def decodeOpcode (op : Nat) (w : Word) : Instr :=
  match op with
  | 0 => .br (nzpField w) (offset9Field w)
  | 1 => if immFlag w = 1 then .addImm (drField w) (sr1Field w) (imm5Field w)
         else .addReg (drField w) (sr1Field w) (sr2Field w)
  | 2 => .ld (drField w) (offset9Field w)
  | 3 => .st (drField w) (offset9Field w)
  | 4 => if longFlag w = 1 then .jsr (offset11Field w) else .jsrr (sr1Field w)
  | 5 => if immFlag w = 1 then .andImm (drField w) (sr1Field w) (imm5Field w)
         else .andReg (drField w) (sr1Field w) (sr2Field w)
  | 6 => .ldr (drField w) (sr1Field w) (offset6Field w)
  | 7 => .str (drField w) (sr1Field w) (offset6Field w)
  | 8 => .rti
  | 9 => .not (drField w) (sr1Field w)
  | 10 => .ldi (drField w) (offset9Field w)
  | 11 => .sti (drField w) (offset9Field w)
  | 12 => .jmp (sr1Field w)
  | 13 => .res
  | 14 => .lea (drField w) (offset9Field w)
  | _ => .trap (trapvect8Field w)

/-- The instruction of a word. Total: every word decodes to exactly one instruction, and nothing is rejected, because
the spec has no illegal word (R66). -/
def decode (w : Word) : Instr := decodeOpcode (opField w).toNat w

/-- The instruction read from the opcode table's numbering of a word of `nbits` bits. An instruction is one 16-bit
word (R46), so a longer one is refused (log entry 9). -/
def decodeTableWord (nbits w : Nat) : Option Instr :=
  if nbits ≤ 16 then some (decode (BitVec.ofNat 16 (w % 2 ^ nbits))) else none

/-! ## The encoder (R62, R79): each field at its place, 0 in every ignored bit (R71) -/

/-- The 3-bit field value that selects a register (R16). -/
def Reg.number : Reg → Nat
  | .r0 => 0
  | .r1 => 1
  | .r2 => 2
  | .r3 => 3
  | .r4 => 4
  | .r5 => 5
  | .r6 => 6
  | .r7 => 7

/-- The word of an instruction, by the sums of R79, with 0 in every ignored bit, as R71 says. DESIGN CHOICE (log entry 16)
for NOT alone: the spec's own words for it, 0x94BF in R100 and those of 95_test_vectors.md, have 1 in w[5:0]; the encoder
follows R71 and writes 0x9480. Both words decode to the same NOT (R63). -/
def encode : Instr → Word
  | .br nzp off => BitVec.ofNat 16 (nzp.toNat * 512 + off.toNat)
  | .addReg dr sr1 sr2 => BitVec.ofNat 16 (0x1000 + dr.number * 512 + sr1.number * 64 + sr2.number)
  | .addImm dr sr1 imm => BitVec.ofNat 16 (0x1000 + dr.number * 512 + sr1.number * 64 + 32 + imm.toNat)
  | .ld dr off => BitVec.ofNat 16 (0x2000 + dr.number * 512 + off.toNat)
  | .st sr off => BitVec.ofNat 16 (0x3000 + sr.number * 512 + off.toNat)
  | .jsr off => BitVec.ofNat 16 (0x4800 + off.toNat)
  | .jsrr base => BitVec.ofNat 16 (0x4000 + base.number * 64)
  | .andReg dr sr1 sr2 => BitVec.ofNat 16 (0x5000 + dr.number * 512 + sr1.number * 64 + sr2.number)
  | .andImm dr sr1 imm => BitVec.ofNat 16 (0x5000 + dr.number * 512 + sr1.number * 64 + 32 + imm.toNat)
  | .ldr dr base off => BitVec.ofNat 16 (0x6000 + dr.number * 512 + base.number * 64 + off.toNat)
  | .str sr base off => BitVec.ofNat 16 (0x7000 + sr.number * 512 + base.number * 64 + off.toNat)
  | .rti => 0x8000
  | .not dr sr1 => BitVec.ofNat 16 (0x9000 + dr.number * 512 + sr1.number * 64)
  | .ldi dr off => BitVec.ofNat 16 (0xA000 + dr.number * 512 + off.toNat)
  | .sti sr off => BitVec.ofNat 16 (0xB000 + sr.number * 512 + off.toNat)
  | .jmp base => BitVec.ofNat 16 (0xC000 + base.number * 64)
  | .res => 0xD000
  | .lea dr off => BitVec.ofNat 16 (0xE000 + dr.number * 512 + off.toNat)
  | .trap v => BitVec.ofNat 16 (0xF000 + v.toNat)

/-- The bits of its word that an instruction ignores (R63). -/
def ignoredBits : Instr → Word
  | .br _ _ => 0
  | .addReg _ _ _ => 0x0018
  | .addImm _ _ _ => 0
  | .ld _ _ => 0
  | .st _ _ => 0
  | .jsr _ => 0
  | .jsrr _ => 0x063F
  | .andReg _ _ _ => 0x0018
  | .andImm _ _ _ => 0
  | .ldr _ _ _ => 0
  | .str _ _ _ => 0
  | .rti => 0x0FFF
  | .not _ _ => 0x003F
  | .ldi _ _ => 0
  | .sti _ _ => 0
  | .jmp _ => 0x0E3F
  | .res => 0x0FFF
  | .lea _ _ => 0
  | .trap _ => 0x0F00

/-! ## The opcode table's rows: mnemonic and format, mask and match (R64, R96 to R115) -/

/-- The mnemonic and the format of the row an instruction belongs to. -/
def Instr.rowName : Instr → String × String
  | .br _ _ => ("BR", "BR")
  | .addReg _ _ _ => ("ADD", "OPR_REG")
  | .addImm _ _ _ => ("ADD", "OPR_IMM")
  | .ld _ _ => ("LD", "PC9")
  | .st _ _ => ("ST", "PC9")
  | .jsr _ => ("JSR", "PC11")
  | .jsrr _ => ("JSRR", "BASE_J")
  | .andReg _ _ _ => ("AND", "OPR_REG")
  | .andImm _ _ _ => ("AND", "OPR_IMM")
  | .ldr _ _ _ => ("LDR", "BASE6")
  | .str _ _ _ => ("STR", "BASE6")
  | .rti => ("RTI", "NONE")
  | .not _ _ => ("NOT", "NOT")
  | .ldi _ _ => ("LDI", "PC9")
  | .sti _ _ => ("STI", "PC9")
  | .jmp _ => ("JMP", "JMP")
  | .res => ("RES", "NONE")
  | .lea _ _ => ("LEA", "PC9")
  | .trap _ => ("TRAP", "TRAP")

/-- The rows of the opcode table: name, mask, match. -/
def opcodeTable : List ((String × String) × Word × Word) :=
  [(("BR", "BR"), 0xF000, 0x0000), (("ADD", "OPR_REG"), 0xF020, 0x1000), (("ADD", "OPR_IMM"), 0xF020, 0x1020),
   (("LD", "PC9"), 0xF000, 0x2000), (("ST", "PC9"), 0xF000, 0x3000), (("JSR", "PC11"), 0xF800, 0x4800),
   (("JSRR", "BASE_J"), 0xF800, 0x4000), (("AND", "OPR_REG"), 0xF020, 0x5000)] ++
  [(("AND", "OPR_IMM"), 0xF020, 0x5020), (("LDR", "BASE6"), 0xF000, 0x6000), (("STR", "BASE6"), 0xF000, 0x7000),
   (("RTI", "NONE"), 0xF000, 0x8000), (("NOT", "NOT"), 0xF000, 0x9000), (("LDI", "PC9"), 0xF000, 0xA000),
   (("STI", "PC9"), 0xF000, 0xB000), (("JMP", "JMP"), 0xF000, 0xC000), (("RES", "NONE"), 0xF000, 0xD000),
   (("LEA", "PC9"), 0xF000, 0xE000), (("TRAP", "TRAP"), 0xF000, 0xF000)]

/-! ## The assembler of the spec's examples (R71 to R78) -/

/-- The condition mask of a BR's letters: n sets w[11], z w[10], p w[9]. A plain `BR`, with no letter, is written as
`BRnzp` (R78). -/
def brMask (n z p : Bool) : BitVec 3 :=
  if n || z || p then BitVec.ofNat 3 (n.toNat * 4 + z.toNat * 2 + p.toNat) else 7

/-- The field an N-bit PC-relative operand is encoded to, in an instruction at address `at_`: the low bits of
`T - (A + 1)` for a label (R75), of the two's-complement value for a decimal offset (R77; log entry 17). -/
def PcOperand.encoded (width : Nat) (at_ : Word) : PcOperand → BitVec width
  | .label address => field 0 width (labelOffset at_ address)
  | .offset n => BitVec.ofInt width n

/-- The instruction assembly text at address `at_` stands for. A negative operand is the low bits of its
two's-complement value (R77). -/
def Source.instr (at_ : Word) : Source → Instr
  | .addReg dr sr1 sr2 => .addReg dr sr1 sr2
  | .addImm dr sr1 imm => .addImm dr sr1 (BitVec.ofInt 5 imm)
  | .andReg dr sr1 sr2 => .andReg dr sr1 sr2
  | .andImm dr sr1 imm => .andImm dr sr1 (BitVec.ofInt 5 imm)
  | .not dr sr1 => .not dr sr1
  | .ld dr target => .ld dr (target.encoded 9 at_)
  | .ldi dr target => .ldi dr (target.encoded 9 at_)
  | .lea dr target => .lea dr (target.encoded 9 at_)
  | .st sr target => .st sr (target.encoded 9 at_)
  | .sti sr target => .sti sr (target.encoded 9 at_)
  | .ldr dr baseR offset => .ldr dr baseR (BitVec.ofInt 6 offset)
  | .str sr baseR offset => .str sr baseR (BitVec.ofInt 6 offset)
  | .br n z p target => .br (brMask n z p) (target.encoded 9 at_)
  | .jsr target => .jsr (target.encoded 11 at_)
  | .jsrr baseR => .jsrr baseR
  | .jmp baseR => .jmp baseR
  | .rti => .rti
  | .res => .res
  | .trap vector => .trap (BitVec.ofNat 8 vector)
  | .ret => .jmp .r7
  | .nop => .br 0 0
  | .getc => .trap 0x20
  | .out => .trap 0x21
  | .puts => .trap 0x22
  | .inp => .trap 0x23
  | .putsp => .trap 0x24
  | .halt => .trap 0x25
  | .inu16 => .trap 0x26
  | .outu16 => .trap 0x27

/-- The word an assembler writes at address `at_`: nothing when the operands do not fit. -/
def Source.assemble (at_ : Word) (i : Source) : Option Word :=
  if i.wellFormed at_ then some (encode (i.instr at_)) else none

end Sys2Proof
end

