-- ==== Sys2Proof/Config.lean ====
section
/-! DEFINITION. The configuration parameters of the hardware (spec/00_scope.md R7), each with every value the spec
gives it and the default this hardware takes, and the free draws that stand for answers of the input device no state
lists (spec/45_trap_services.md R119; spec/93_implementation_defined.md I14). -/

namespace Sys2Proof

/-- Parameter `BR_PREDICATE` (R7, decision D2). -/
inductive BrPredicate where
  | nonzero | equalsOne
  deriving DecidableEq, Repr

/-- Parameter `JSRR_ORDER` (R7, decision D3). -/
inductive JsrrOrder where
  | linkFirst | targetFirst
  deriving DecidableEq, Repr

/-- Parameter `TRAP_UNMAPPED` (R7, decision D4). -/
inductive TrapUnmapped where
  | nop | fault
  deriving DecidableEq, Repr

/-- The parameters of R7. They are fixed for a machine: no step changes them. -/
structure Config where
  /-- `START`: the address of the first instruction (R152). -/
  start          : Word
  /-- `BR_PREDICATE` (R108). -/
  brPredicate    : BrPredicate
  /-- `JSRR_ORDER` (R110). -/
  jsrrOrder      : JsrrOrder
  /-- `TRAP_UNMAPPED` (R115, R117). -/
  trapUnmapped   : TrapUnmapped
  /-- `INU16_ALLOW_PLUS` (R133). -/
  inu16AllowPlus : Bool
  deriving DecidableEq, Repr

/-- The values this spec's hardware takes: the default column of R7. -/
def Config.hardware : Config where
  start          := 0x3000
  brPredicate    := .nonzero
  jsrrOrder      := .linkFirst
  trapUnmapped   := .nop
  inu16AllowPlus := true

/-- An answer of the device to "read one byte" that no state lists: a byte, a failure, or no answer ever
(R120, R124). -/
inductive ByteDraw where
  | never
  | fail
  | ok (b : Byte)
  deriving DecidableEq, Repr, Inhabited

/-- An answer of the device to "read one line" that no state lists (R121, R124). Of the bytes of an `ok`, those
after the first line are not used. -/
inductive LineDraw where
  | never
  | fail
  | ok (s : List Byte)
  deriving DecidableEq, Repr, Inhabited

/-- FREE VALUE (log entry 4): the device's answer to the `n`-th byte request that no state lists. -/
opaque Config.freeByteDraw : Nat → ByteDraw

/-- FREE VALUE (log entry 4): the device's answer to the `n`-th line request that no state lists. -/
opaque Config.freeLineDraw : Nat → LineDraw

end Sys2Proof
end

