-- ==== Sys2Proof/Machine/State.lean ====
section
/-! DEFINITION. The state of the CORE as plain data (spec/10_state.md R15 to R27), the state of the character I/O port
a step reads and appends to (spec/45_trap_services.md R119 to R125), the reasons a step can stop, and the state when
execution begins (spec/10_state.md R27; spec/70_reset_and_hazards.md R151 to R154). -/

namespace Sys2Proof.Machine

/-- The register file: eight 16-bit registers, one bank, none hard-wired (R15). -/
structure Regs where
  r0 : Word
  r1 : Word
  r2 : Word
  r3 : Word
  r4 : Word
  r5 : Word
  r6 : Word
  r7 : Word
  deriving DecidableEq, Repr

/-- Memory M (R28): the words that are not 0x0000, by address, addresses strictly rising (log entry 2). An address that
is not listed holds 0x0000 (R151). -/
abbrev Memory := List (Nat × Word)

/-- What stands next on the input of the character I/O device (R120, R121): a byte, or a read that fails. A failing
read consumes the `failure` item that stops it (log entry 6). -/
inductive InputItem where
  | byte (b : Byte)
  | failure
  deriving DecidableEq, Repr

/-- What the input device does once the listed items are read: the input is at its end and every read fails (R120,
R121); no read ever returns (R124); or nothing is known, and each answer is a free draw (log entry 4). -/
inductive InputTail where
  | ended
  | stalled
  | unknown
  deriving DecidableEq, Repr

/-- An event of the output: a byte written, or a flush (R122, R123). -/
inductive OutputEvent where
  | byte (b : Byte)
  | flush
  deriving DecidableEq, Repr

/-- The stop information of a CORE in the state `Faulted` (R138). -/
inductive StopInfo where
  | trapVectorUnmapped (vector : BitVec 8)
  deriving DecidableEq, Repr

/-- The states of the execution loop: `Running` and `Halted` (R80), and `Faulted`, which exists only under
`TRAP_UNMAPPED = FAULT` (R138). -/
inductive LoopState where
  | running
  | halted
  | faulted
  deriving DecidableEq, Repr

/-- The whole state. `regs`, `pc`, `cond`, `run` and `mem` are the architectural state of 10_state.md; `stop` is the
stop information of R138 (log entry 11); `input`, `inputTail`, `draws` and `output` are the model's record of the character I/O port
(R119, R125; log entries 3 to 6); `config` holds the parameters of R7, which no step changes (log entry 1). -/
structure State where
  /-- R0 to R7 (R15). -/
  regs      : Regs
  /-- The program counter, a word address (R19, R20). -/
  pc        : Word
  /-- The condition flags register: N = bit 2, Z = bit 1, P = bit 0 (R21). -/
  cond      : Word
  /-- The running flag RUN (R24). -/
  run       : Bool
  /-- The 65536 words of memory (R28). -/
  mem       : Memory
  /-- The stop information, once `TRAP_UNMAPPED = FAULT` has stopped the CORE (R138). -/
  stop      : Option StopInfo
  /-- What the input device will deliver next, in order. -/
  input     : List InputItem
  /-- What it does after that. -/
  inputTail : InputTail
  /-- How many answers were free draws so far. -/
  draws     : Nat
  /-- The output so far, oldest event first (R125). -/
  output    : List OutputEvent
  /-- The parameters of this machine (R7). -/
  config    : Config
  deriving DecidableEq, Repr

/-- Why a step never completes (R137; log entry 10). Both are stuck states the spec describes; no other exists. -/
inductive Fault where
  /-- A GETC, IN or INU16 whose read never returns (R124, R137): raised by those services when the device has
  stalled or a free draw is `never`. Safe: the spec's CORE stays inside that step for ever. -/
  | blockedOnInput
  /-- A PUTS that finds no word 0x0000 in the whole memory (R128, R137): raised by PUTS only. Safe: the spec's CORE
  stays inside that step for ever, writing bytes without end; its states inside the step are `State.insidePuts`. -/
  | endlessPuts
  deriving DecidableEq, Repr

/-- Why an instruction has no meaning. -/
inductive Refusal where
  /-- An instruction the model does not give a meaning. No arm of `exec` raises it: every instruction has one. Safe. -/
  | notModelled (mnemonic : String)
  deriving DecidableEq, Repr

/-- What a meaning answers. -/
abbrev Result := Host.Outcome State Fault Refusal

/-- How an input operation ends (R12, R120, R121, R124): a value, a failure, or never. The state is the one after it. -/
inductive IoRead (α : Type) where
  | ok (value : α) (s : State)
  | fail (s : State)
  | blocked
  deriving DecidableEq, Repr

/-- Creation (R151): every register, PC, COND and every memory word is 0x0000. RUN at creation is not given (N29) and is
set by `State.start`; the input device is unknown and nothing has been written (log entries 3 and 7). -/
def State.created (c : Config) : State where
  regs      := ⟨0, 0, 0, 0, 0, 0, 0, 0⟩
  pc        := 0
  cond      := 0
  run       := false
  mem       := []
  stop      := none
  input     := []
  inputTail := .unknown
  draws     := 0
  output    := []
  config    := c

/-- Start (R153): `PC <- START` and RUN = 1. -/
def State.start (s : State) : State := { s with pc := s.config.start, run := true }

/-- The state when execution begins, with this hardware's parameters and no image loaded (R27, R154). -/
def State.reset : State := (State.created Config.hardware).start

end Sys2Proof.Machine
end

