-- ==== Sys2Proof/Machine/Ops.lean ====
section
/-! DEFINITION. The shared operations over registers, memory, the PC and the running flag, and the one stop a TRAP can
raise (spec/10_state.md, spec/20_memory.md, spec/40_cycle.md, spec/60_exceptions.md). -/

namespace Sys2Proof.Machine

/-! ## General registers (R11, R15, R16) -/

/-- `R[i]`. -/
def Regs.get (rf : Regs) : Reg → Word
  | .r0 => rf.r0
  | .r1 => rf.r1
  | .r2 => rf.r2
  | .r3 => rf.r3
  | .r4 => rf.r4
  | .r5 => rf.r5
  | .r6 => rf.r6
  | .r7 => rf.r7

/-- `R[i] <- v`. -/
def Regs.set (rf : Regs) (i : Reg) (v : Word) : Regs :=
  match i with
  | .r0 => { rf with r0 := v }
  | .r1 => { rf with r1 := v }
  | .r2 => { rf with r2 := v }
  | .r3 => { rf with r3 := v }
  | .r4 => { rf with r4 := v }
  | .r5 => { rf with r5 := v }
  | .r6 => { rf with r6 := v }
  | .r7 => { rf with r7 := v }

/-- `R[i]` in a state. -/
def State.reg (s : State) (i : Reg) : Word := s.regs.get i

/-- `R[i] <- v` in a state: no other register and nothing else changes. COND does not follow (R22). -/
def State.setReg (s : State) (i : Reg) (v : Word) : State := { s with regs := s.regs.set i v }

/-! ## Memory (R28 to R34) -/

/-- What an address that is not listed holds: memory is zero-initialized (R151). -/
def Memory.unlisted : Word := 0

/-- M[a]. -/
def Memory.read : Memory → Nat → Word
  | [], _ => Memory.unlisted
  | (k, w) :: m, a => if k = a then w else Memory.read m a

/-- `M[a] <- v`, keeping the canonical form. -/
def Memory.write : Memory → Nat → Word → Memory
  | [], a, v => if v = Memory.unlisted then [] else [(a, v)]
  | (k, w) :: m, a, v =>
    if a < k then (if v = Memory.unlisted then (k, w) :: m else (a, v) :: (k, w) :: m)
    else if a = k then (if v = Memory.unlisted then m else (a, v) :: m)
    else (k, w) :: Memory.write m a v

/-- Every listed address is `lo` or more, addresses rise strictly, each is one of the 65536 (R28), and no listed word
is what an unlisted address holds. -/
def Memory.wfFrom : Nat → Memory → Bool
  | _, [] => true
  | lo, (k, w) :: m =>
    decide (lo ≤ k) && decide (k < 65536) && decide (w ≠ Memory.unlisted) && Memory.wfFrom (k + 1) m

/-- The canonical form of memory. -/
def Memory.wf (m : Memory) : Bool := Memory.wfFrom 0 m

/-- `MemRead(addr, 1)` (R30): it cannot fail and has no side effect. Every 16-bit value is an address (R29). -/
def State.memRead (s : State) (a : Word) : Word := s.mem.read a.toNat

/-- `MemWrite(addr, 1, v)` (R31): it cannot fail and changes nothing else. -/
def State.memWrite (s : State) (a v : Word) : State := { s with mem := s.mem.write a.toNat v }

/-! ## The cycle (R80 to R86) -/

/-- Fetch: `ir <- MemRead(PC, 1)` (R81). -/
def State.fetch (s : State) : Word := s.memRead s.pc

/-- `PC <- target` (R11). -/
def State.setPc (s : State) (target : Word) : State := { s with pc := target }

/-- `PC <- PC + 1` modulo 65536 (R82). -/
def State.incrementPc (s : State) : State := s.setPc (s.pc + 1)

/-- `RUN <- 0` (R131). -/
def State.clearRun (s : State) : State := { s with run := false }

/-- The state of the execution loop (R80, R86, R138). -/
def State.loopState (s : State) : LoopState :=
  match s.stop with
  | some _ => .faulted
  | none => if s.run then .running else .halted

/-! ## Exceptions and returning from one

The CORE has one exception, and only under `TRAP_UNMAPPED = FAULT` (R136, R138). It has no handler, no vector and no
saved state, so no return from an exception exists (R138, R142): RTI returns from nothing (R113), and the return of a
trap service is the end of its step (R118). -/

/-- Taking the exception: the stop information is recorded and nothing else changes. PC keeps the value the step's
increment gave it and RUN stays 1; the CORE is `Faulted` and performs no further step (R138). -/
def State.raiseStop (s : State) (info : StopInfo) : State := { s with stop := some info }

/-- An operation the spec calls a no-op: RTI, RES, PUTSP and an unmapped TRAP under `TRAP_UNMAPPED = NOP`
(R113, R114, R117, R130). -/
def State.noOperation (s : State) : State := s

/-- The stop cause code and its information, once a run has stopped (R139): 0 = Halted, 1 = TrapVectorUnmapped with the
8-bit vector. -/
def State.stopCause (s : State) : Option (Nat × Option (BitVec 8)) :=
  match s.stop with
  | some (.trapVectorUnmapped v) => some (1, some v)
  | none => if s.run then none else some (0, none)

end Sys2Proof.Machine
end

