-- ==== Sys2Proof/Machine/Operands.lean ====
section
/-! DEFINITION. Operand values, the ALU and the address adders (spec/00_scope.md R10; spec/30_encoding.md R60, R61;
spec/40_cycle.md R90, R91). No immediate or offset is scaled. -/

namespace Sys2Proof.Machine

/-- `sext_N(f)` (R10): the field with its top bit copied into bits 15:N. -/
def sext {n : Nat} (f : BitVec n) : Word := f.signExtend 16

/-- `zext_N(f)` (R10): the field with bits 15:N clear. -/
def zext {n : Nat} (f : BitVec n) : Word := f.setWidth 16

/-- The low byte v[7:0] of a word. -/
def lowByte (v : Word) : Byte := field 0 8 v

/-! ## The ALU: the three functions of R90 -/

/-- `ADD16(a, b) = (a + b) mod 65536`; carry and overflow are discarded (R91). -/
def add16 (a b : Word) : Word := a + b

/-- `AND16(a, b) = a & b`. -/
def and16 (a b : Word) : Word := a &&& b

/-- `NOT16(a) = ~a`. -/
def not16 (a : Word) : Word := ~~~a

/-! ## The address adders (R90): every sum is modulo 65536 (R32) -/

/-- `PC + sext_9(PCoffset9)`, with the incremented PC (R82). -/
def pcPlus9 (s : State) (off : BitVec 9) : Word := s.pc + sext off

/-- `PC + sext_11(PCoffset11)`, with the incremented PC (R82). -/
def pcPlus11 (s : State) (off : BitVec 11) : Word := s.pc + sext off

/-- `BaseR + sext_6(offset6)`. -/
def basePlus6 (s : State) (base : Reg) (off : BitVec 6) : Word := s.reg base + sext off

/-- The effective address of LDI and STI: the word at `PC + sext_9(PCoffset9)` (R105, R106). -/
def indirect9 (s : State) (off : BitVec 9) : Word := s.memRead (pcPlus9 s off)

end Sys2Proof.Machine
end

