-- ==== Sys2Proof/Machine/Flags.lean ====
section
/-! DEFINITION. The condition flags: their values, the flag update and the branch predicate (spec/10_state.md R21 to
R23; spec/40_cycle.md R87 to R89; spec/43_control.md R108). -/

namespace Sys2Proof.Machine

/-- N = 0x0004 (R21). -/
def flagN : Word := 0x0004
/-- Z = 0x0002 (R21). -/
def flagZ : Word := 0x0002
/-- P = 0x0001 (R21). -/
def flagP : Word := 0x0001

/-- The one-hot classification of a value (R87). -/
def flagsOf (v : Word) : Word :=
  if v = 0 then flagZ else if v.msb then flagN else flagP

/-- `update_flags(i)` (R87): the whole of COND is written from the register's current value. -/
def State.updateFlags (s : State) (i : Reg) : State := { s with cond := flagsOf (s.reg i) }

/-- The common end of the flag-updating instructions (R88, R89): DR is written, then the flags from its new value. -/
def State.define (s : State) (dr : Reg) (v : Word) : State := (s.setReg dr v).updateFlags dr

/-- Whether a BR is taken (R108): `t <- COND & zext_3(nzp)`, then the test `BR_PREDICATE` names. -/
def branchTaken (p : BrPredicate) (cond : Word) (nzp : BitVec 3) : Bool :=
  match p with
  | .nonzero => decide (cond &&& zext nzp ≠ 0)
  | .equalsOne => decide (cond &&& zext nzp = 1)

end Sys2Proof.Machine
end

