-- ==== Sys2Proof/Machine/Control.lean ====
section
/-! DEFINITION. BR, JSR, JSRR and JMP (spec/43_control.md R108 to R112). PC on entry is the incremented PC. -/

namespace Sys2Proof.Machine

/-- BR (R108). -/
def execBr (nzp : BitVec 3) (off : BitVec 9) (s : State) : Result :=
  .next (if branchTaken s.config.brPredicate s.cond nzp then s.setPc (pcPlus9 s off) else s)

/-- JSR (R109): the sum uses the incremented PC, the value R7 receives. -/
def execJsr (off : BitVec 11) (s : State) : Result :=
  .next ((s.setReg .r7 s.pc).setPc (pcPlus11 s off))

/-- JSRR (R110): under `LINK_FIRST` BaseR is read after the link write, under `TARGET_FIRST` before it. -/
def execJsrr (base : Reg) (s : State) : Result :=
  match s.config.jsrrOrder with
  | .linkFirst => .next ((s.setReg .r7 s.pc).setPc ((s.setReg .r7 s.pc).reg base))
  | .targetFirst => .next ((s.setReg .r7 s.pc).setPc (s.reg base))

/-- JMP, and RET when BaseR is R7 (R111, R112). -/
def execJmp (base : Reg) (s : State) : Result :=
  .next (s.setPc (s.reg base))

end Sys2Proof.Machine
end

