-- ==== Sys2Proof/Machine/DataMovement.lean ====
section
/-! DEFINITION. LD, ST, LDR, STR, LDI, STI and LEA (spec/42_data_movement.md R101 to R107). -/

namespace Sys2Proof.Machine

/-- LD (R101). -/
def execLd (dr : Reg) (off : BitVec 9) (s : State) : Result :=
  .next (s.define dr (s.memRead (pcPlus9 s off)))

/-- ST (R102). -/
def execSt (sr : Reg) (off : BitVec 9) (s : State) : Result :=
  .next (s.memWrite (pcPlus9 s off) (s.reg sr))

/-- LDR (R103). -/
def execLdr (dr base : Reg) (off : BitVec 6) (s : State) : Result :=
  .next (s.define dr (s.memRead (basePlus6 s base off)))

/-- STR (R104). -/
def execStr (sr base : Reg) (off : BitVec 6) (s : State) : Result :=
  .next (s.memWrite (basePlus6 s base off) (s.reg sr))

/-- LDI (R105). -/
def execLdi (dr : Reg) (off : BitVec 9) (s : State) : Result :=
  .next (s.define dr (s.memRead (indirect9 s off)))

/-- STI (R106). -/
def execSti (sr : Reg) (off : BitVec 9) (s : State) : Result :=
  .next (s.memWrite (indirect9 s off) (s.reg sr))

/-- LEA (R107): no memory access. -/
def execLea (dr : Reg) (off : BitVec 9) (s : State) : Result :=
  .next (s.define dr (pcPlus9 s off))

end Sys2Proof.Machine
end

