-- ==== Sys2Proof/Machine/Operate.lean ====
section
/-! DEFINITION. ADD, AND and NOT (spec/41_operate.md R96 to R100). -/

namespace Sys2Proof.Machine

/-- ADD, register mode (R96). -/
def execAddReg (dr sr1 sr2 : Reg) (s : State) : Result :=
  .next (s.define dr (add16 (s.reg sr1) (s.reg sr2)))

/-- ADD, immediate mode (R97). -/
def execAddImm (dr sr1 : Reg) (imm5 : BitVec 5) (s : State) : Result :=
  .next (s.define dr (add16 (s.reg sr1) (sext imm5)))

/-- AND, register mode (R98). -/
def execAndReg (dr sr1 sr2 : Reg) (s : State) : Result :=
  .next (s.define dr (and16 (s.reg sr1) (s.reg sr2)))

/-- AND, immediate mode (R99). -/
def execAndImm (dr sr1 : Reg) (imm5 : BitVec 5) (s : State) : Result :=
  .next (s.define dr (and16 (s.reg sr1) (sext imm5)))

/-- NOT (R100). -/
def execNot (dr sr1 : Reg) (s : State) : Result :=
  .next (s.define dr (not16 (s.reg sr1)))

end Sys2Proof.Machine
end

