-- ==== Sys2Proof/Machine/Io.lean ====
section
/-! DEFINITION. The four operations of the character I/O port (spec/45_trap_services.md R119 to R125), over the part of
State that records the port. Only trap services use them. -/

namespace Sys2Proof.Machine

/-- The line terminator 0x0A (R121). -/
def newline : Byte := 0x0A

/-- `IoReadByte()` (R120). A byte that is returned is consumed; the end of the input is a failure that stays; an
answer no state lists is a free draw. -/
def ioReadByte (s : State) : IoRead Byte :=
  match s.input with
  | .byte b :: rest => .ok b { s with input := rest }
  | .failure :: rest => .fail { s with input := rest }
  | [] =>
    match s.inputTail with
    | .ended => .fail s
    | .stalled => .blocked
    | .unknown =>
      match Config.freeByteDraw s.draws with
      | .ok b => .ok b { s with draws := s.draws + 1 }
      | .fail => .fail { s with draws := s.draws + 1 }
      | .never => .blocked

/-- How the listed input ends a line: with 0x0A, with a failing read, or not at all. -/
inductive LineEnd where
  | complete
  | failed
  | cut
  deriving DecidableEq, Repr

/-- The first line of the listed input: its bytes, how it ends, and the items after it. -/
structure LineScan where
  bytes : List Byte
  stop  : LineEnd
  rest  : List InputItem
  deriving DecidableEq, Repr

/-- Read the listed input up to and including the first 0x0A, or up to a read that fails. -/
def scanLine : List InputItem → LineScan
  | [] => ⟨[], .cut, []⟩
  | .failure :: rest => ⟨[], .failed, rest⟩
  | .byte b :: rest =>
    if b = newline then ⟨[b], .complete, rest⟩
    else ⟨b :: (scanLine rest).bytes, (scanLine rest).stop, (scanLine rest).rest⟩

/-- The bytes up to and including the first 0x0A. -/
def firstLine : List Byte → List Byte
  | [] => []
  | b :: rest => if b = newline then [b] else b :: firstLine rest

/-- `IoReadLine()` (R121): the bytes of one line, with its 0x0A if the input has one before its end; a failure when the
read fails or the input is already at its end. The line is consumed either way (R132). Where the listed input stops in
the middle of a line, the rest of the line comes from the device's tail; a drawn line without 0x0A says that the input
ended there (log entry 5). -/
def ioReadLine (s : State) : IoRead (List Byte) :=
  match (scanLine s.input).stop with
  | .complete => .ok (scanLine s.input).bytes { s with input := (scanLine s.input).rest }
  | .failed => .fail { s with input := (scanLine s.input).rest }
  | .cut =>
    match s.inputTail with
    | .ended =>
      if (scanLine s.input).bytes = [] then .fail { s with input := [] }
      else .ok (scanLine s.input).bytes { s with input := [] }
    | .stalled => .blocked
    | .unknown =>
      match Config.freeLineDraw s.draws with
      | .never => .blocked
      | .fail => .fail { s with input := [], draws := s.draws + 1 }
      | .ok raw =>
        if (scanLine s.input).bytes ++ firstLine raw = [] then
          .fail { s with input := [], inputTail := .ended, draws := s.draws + 1 }
        else
          .ok ((scanLine s.input).bytes ++ firstLine raw)
            { s with
              input := []
              inputTail := if newline ∈ firstLine raw then .unknown else .ended
              draws := s.draws + 1 }

/-- `IoWriteByte(b)` (R122): the byte is appended to the output; the CORE reads no result. -/
def State.ioWriteByte (s : State) (b : Byte) : State := { s with output := s.output ++ [.byte b] }

/-- `IoWriteByte` of each byte in turn. -/
def State.ioWriteBytes (s : State) (bs : List Byte) : State := { s with output := s.output ++ bs.map .byte }

/-- `IoFlush()` (R123): a flush event in the output. -/
def State.ioFlush (s : State) : State := { s with output := s.output ++ [.flush] }

end Sys2Proof.Machine
end

