-- ==== Sys2Proof/Machine/Text.lean ====
section
/-! DEFINITION. The text conversions of the trap services: the characters of a PUTS string, the decimal digits OUTU16
prints and the line INU16 parses (spec/45_trap_services.md R128, R133, R134). -/

namespace Sys2Proof.Machine

/-- How many words stand before the first that equals 0x0000, from address `a` up, modulo 65536, looking at `limit`
words at most (R128). Nothing when none of them is 0x0000. -/
def stringLength (m : Memory) : Nat → Word → Option Nat
  | 0, _ => none
  | limit + 1, a => if m.read a.toNat = 0 then some 0 else (stringLength m limit (a + 1)).map (· + 1)

/-- The bytes PUTS writes for the `k` words from address `a` up, modulo 65536: the low byte of each (R128). -/
def stringBytes (m : Memory) : Nat → Word → List Byte
  | 0, _ => []
  | k + 1, a => lowByte (m.read a.toNat) :: stringBytes m k (a + 1)

/-- The ASCII digit of `d`, for d from 0 to 9. -/
def digitByte (d : Nat) : Byte := BitVec.ofNat 8 (0x30 + d)

/-- The decimal digits of `v`, the most significant first, for a `v` of `n` digits at most. -/
def digitsUpTo : Nat → Nat → List Byte
  | 0, _ => []
  | n + 1, v => if v < 10 then [digitByte v] else digitsUpTo n (v / 10) ++ [digitByte (v % 10)]

/-- The unsigned decimal form of a word: no leading zeros, "0" for 0x0000, no sign (R134). A word has 5 digits at
most. -/
def decimalDigits (v : Word) : List Byte := digitsUpTo 5 v.toNat

/-- ASCII whitespace (R133 step 1). -/
def isSpace (b : Byte) : Bool :=
  b == 0x09 || b == 0x0A || b == 0x0B || b == 0x0C || b == 0x0D || b == 0x20

/-- The ASCII digits '0' to '9' (R133 step 3). -/
def isDigit (b : Byte) : Bool := decide (0x30 ≤ b.toNat) && decide (b.toNat ≤ 0x39)

/-- Without leading whitespace. -/
def trimLeft : List Byte → List Byte
  | [] => []
  | b :: rest => if isSpace b then trimLeft rest else b :: rest

/-- Without leading and trailing whitespace (R133 step 1). -/
def trim (s : List Byte) : List Byte := (trimLeft (trimLeft s).reverse).reverse

/-- Without one leading '+', if `INU16_ALLOW_PLUS` is true (R133 step 2). -/
def dropPlus (allowPlus : Bool) : List Byte → List Byte
  | [] => []
  | b :: rest => if allowPlus && b == 0x2B then rest else b :: rest

/-- The value of an ASCII digit. -/
def digitValue (b : Byte) : Nat := b.toNat - 0x30

/-- The number a string of decimal digits stands for, leading zeros allowed (R133 step 4). -/
def decimalValue (s : List Byte) : Nat := s.foldl (fun acc b => acc * 10 + digitValue b) 0

/-- Steps 3 and 4 of R133: one or more digits and nothing else, with a value of 65535 at most. -/
def parseDigits (s : List Byte) : Option Word :=
  if s = [] then none
  else if s.all isDigit then
    (if decimalValue s ≤ 65535 then some (BitVec.ofNat 16 (decimalValue s)) else none)
  else none

/-- `parse_u16(s)` (R133). -/
def parseU16 (allowPlus : Bool) (s : List Byte) : Option Word := parseDigits (dropPlus allowPlus (trim s))

end Sys2Proof.Machine
end

