-- ==== Sys2Proof/Machine/TrapServices.lean ====
section
/-! DEFINITION. The eight trap services (spec/45_trap_services.md R126 to R135). None writes COND, PC, R7 or any
register but R0 (R135). -/

namespace Sys2Proof.Machine

/-- The services, in the order of the trap dispatch table (R116). -/
inductive Service where
  | getc | out | puts | inp | putsp | halt | inu16 | outu16
  deriving DecidableEq, Repr

/-- GETC (R126): no echo; a failed read leaves R0 unchanged. -/
def serviceGetc (s : State) : Result :=
  match ioReadByte s with
  | .ok b t => .next (t.setReg .r0 (zext b))
  | .fail t => .next t
  | .blocked => .fault .blockedOnInput

/-- OUT (R127). -/
def serviceOut (s : State) : Result := .next (s.ioWriteByte (lowByte (s.reg .r0))).ioFlush

/-- The state inside the step of a PUTS that has passed `k` words of its string: `k` bytes are written, and nothing else
is changed (R128). Of a PUTS that never ends, these are its states, one for each `k`: RUN is as it was and the output
grows without end (R137; log entry 10). -/
def State.insidePuts (s : State) (k : Nat) : State := s.ioWriteBytes (stringBytes s.mem k (s.reg .r0))

/-- PUTS (R128): the bytes of the words before the first 0x0000, then a flush. Memory has 65536 words and cannot change
during the scan, so a scan that finds no 0x0000 in 65536 words never ends (DEDUCED, log entry 10). -/
def servicePuts (s : State) : Result :=
  match stringLength s.mem 65536 (s.reg .r0) with
  | some k => .next (s.insidePuts k).ioFlush
  | none => .fault .endlessPuts

/-- IN (R129): the byte is echoed; no prompt; a failed read echoes nothing and leaves R0 unchanged. -/
def serviceIn (s : State) : Result :=
  match ioReadByte s with
  | .ok b t => .next ((t.ioWriteByte b).ioFlush.setReg .r0 (zext b))
  | .fail t => .next t
  | .blocked => .fault .blockedOnInput

/-- PUTSP (R130): a no-op. -/
def servicePutsp (s : State) : Result := .next s.noOperation

/-- HALT (R131): RUN only. -/
def serviceHalt (s : State) : Result := .next s.clearRun

/-- INU16 (R132): a read failure or a parse failure leaves R0 unchanged; the line is consumed either way. -/
def serviceInu16 (s : State) : Result :=
  match ioReadLine s with
  | .ok line t =>
    match parseU16 s.config.inu16AllowPlus line with
    | some n => .next (t.setReg .r0 n)
    | none => .next t
  | .fail t => .next t
  | .blocked => .fault .blockedOnInput

/-- OUTU16 (R134). -/
def serviceOutu16 (s : State) : Result :=
  .next ((s.ioWriteBytes (decimalDigits (s.reg .r0))).ioWriteByte newline).ioFlush

/-- A service runs inside the step of the TRAP that selected it (R118). -/
def runService : Service → State → Result
  | .getc, s => serviceGetc s
  | .out, s => serviceOut s
  | .puts, s => servicePuts s
  | .inp, s => serviceIn s
  | .putsp, s => servicePutsp s
  | .halt, s => serviceHalt s
  | .inu16, s => serviceInu16 s
  | .outu16, s => serviceOutu16 s

end Sys2Proof.Machine
end

