-- ==== Sys2Proof/Machine/System.lean ====
section
/-! DEFINITION. RTI, RES, TRAP and the trap vector dispatcher (spec/44_system.md R113 to R118). -/

namespace Sys2Proof.Machine

/-- RTI (R113): a no-op; there is no privilege and no interrupt to return from. -/
def execRti (s : State) : Result := .next s.noOperation

/-- RES (R114): a no-op; the reserved opcode does not trap. -/
def execRes (s : State) : Result := .next s.noOperation

/-- The trap base 0x20 (R115). -/
def trapBase : Nat := 0x20

/-- The trap dispatch table (R116), "indexed 0–7, trap vectors 0x20–0x27". -/
def trapTable : List Service := [.getc, .out, .puts, .inp, .putsp, .halt, .inu16, .outu16]

/-- The service of a trap vector: the table's entry at `v - 0x20`, if the vector is in the table (R115, R117). -/
def serviceOf (v : BitVec 8) : Option Service :=
  if trapBase ≤ v.toNat then trapTable[v.toNat - trapBase]? else none

/-- TRAP (R115). It writes no R7, saves nothing and leaves PC as it is (R118). An unmapped vector is a no-op or the stop
TrapVectorUnmapped, as `TRAP_UNMAPPED` says (R117, R138). -/
def execTrap (v : BitVec 8) (s : State) : Result :=
  match serviceOf v with
  | some service => runService service s
  | none =>
    match s.config.trapUnmapped with
    | .nop => .next s.noOperation
    | .fault => .next (s.raiseStop (.trapVectorUnmapped v))

end Sys2Proof.Machine
end

