-- ==== Sys2Proof/Machine/Step.lean ====
section
/-! DEFINITION. One step (spec/40_cycle.md R80 to R95), and the placing of a word where the next step fetches it. -/

namespace Sys2Proof.Machine

/-- One step (R92): fetch at PC, increment PC, decode, dispatch. In `Halted` and in `Faulted` no step is performed and no
state changes (R93, R138; log entry 8). -/
def step (s : State) : Host.Outcome State Fault Refusal :=
  match s.loopState with
  | .running => exec (decode s.fetch) s.incrementPc
  | .halted => .next s
  | .faulted => .next s

/-- `s` with the word of an instruction at PC, in the state `Running`, so that the next step fetches and runs it. It
stands for a load from outside the machine (R43), not for anything the CORE does (log entry 9). -/
def State.withFetchWord (s : State) (nbits w : Nat) : State :=
  { s.memWrite s.pc (BitVec.ofNat 16 (w % 2 ^ nbits)) with run := true, stop := none }

end Sys2Proof.Machine
end

