-- ==== Sys2Proof/Machine/Accesses.lean ====
section
/-! DEFINITION. The memory accesses of each instruction and of a step, in order (spec/20_memory.md R38), as a table of
its own beside the meanings (log entry 12). -/

namespace Sys2Proof.Machine

/-- One access of the memory port (R30, R31). -/
inductive Access where
  | read (a : Word)
  | write (a v : Word)
  deriving DecidableEq, Repr

/-- The reads of PUTS: up to and including the first word equal to 0x0000, `n` at most (R38, R128). -/
def stringReads (m : Memory) : Nat → Word → List Access
  | 0, _ => []
  | n + 1, a => .read a :: (if m.read a.toNat = 0 then [] else stringReads m n (a + 1))

/-- The accesses of an instruction's handler, in order (R38). The state is the one with the incremented PC. -/
def accesses : Instr → State → List Access
  | .br _ _, _ => []
  | .addReg _ _ _, _ => []
  | .addImm _ _ _, _ => []
  | .ld _ off, s => [.read (pcPlus9 s off)]
  | .st sr off, s => [.write (pcPlus9 s off) (s.reg sr)]
  | .jsr _, _ => []
  | .jsrr _, _ => []
  | .andReg _ _ _, _ => []
  | .andImm _ _ _, _ => []
  | .ldr _ base off, s => [.read (basePlus6 s base off)]
  | .str sr base off, s => [.write (basePlus6 s base off) (s.reg sr)]
  | .rti, _ => []
  | .not _ _, _ => []
  | .ldi _ off, s => [.read (pcPlus9 s off), .read (indirect9 s off)]
  | .sti sr off, s => [.read (pcPlus9 s off), .write (indirect9 s off) (s.reg sr)]
  | .jmp _, _ => []
  | .res, _ => []
  | .lea _ _, _ => []
  | .trap v, s => if v = 0x22 then stringReads s.mem 65536 (s.reg .r0) else []

/-- The accesses of a step: the fetch, then the handler's (R38); none when no step is performed (R93). -/
def stepAccesses (s : State) : List Access :=
  match s.loopState with
  | .running => .read s.pc :: accesses (decode s.fetch) s.incrementPc
  | .halted => []
  | .faulted => []

end Sys2Proof.Machine
end

