-- ==== Sys2Proof/Machine/Loader.lean ====
section
/-! DEFINITION. The contract of the external program loader and the start sequence (spec/20_memory.md R43 to R45;
spec/70_reset_and_hazards.md R151 to R154). The loader acts before the first step; no step calls it
(log entry 13). -/

namespace Sys2Proof.Machine

/-- The default program base address (R6): where the loader puts an image when no other base is given (R43). -/
def programBase : Nat := 0x3000

/-- The offset the process entry loads at, and starts at, from the default base (R43, R152). -/
def entryOffset : Nat := 0

/-- The words of an image file (R44): word k is `byte[2k] * 256 + byte[2k+1]`; a final odd byte is not loaded. -/
def imageWords : List Byte → List Word
  | hi :: lo :: rest => BitVec.ofNat 16 (hi.toNat * 256 + lo.toNat) :: imageWords rest
  | [_] => []
  | [] => []

/-- Write words from address `a` up; words beyond 0xFFFF are not written, and the load does not wrap (R43). -/
def writeWords : List Word → Nat → Memory → Memory
  | [], _, m => m
  | w :: ws, a, m => if a < 65536 then writeWords ws (a + 1) (m.write a w) else m

/-- The image loader: image word k goes to `base + offset + k` (R43). -/
def State.loadImage (s : State) (base offset : Nat) (file : List Byte) : State :=
  { s with mem := writeWords (imageWords file) (base + offset) s.mem }

/-- The start sequence (R154): creation, image load, start. A file that cannot be read (`none`) is a load failure, and
execution never begins (R45). -/
def boot (c : Config) (base offset : Nat) (file : Option (List Byte)) : Option State :=
  file.map fun bytes => ((State.created c).loadImage base offset bytes).start

/-- The start sequence as the process entry runs it: the image at offset 0 from the default base (R43, R152). -/
def processEntry (c : Config) (file : Option (List Byte)) : Option State := boot c programBase entryOffset file

end Sys2Proof.Machine
end

