-- ==== Sys2Proof/Safety.lean ====
section
/-! DEFINITION. What counts as a safe state and what a step may change: the invariant every step keeps, the spec's
lists of which instructions may write what (spec/10_state.md R17, R22, R24; spec/40_cycle.md R88), and the frame
predicates the statements are written with. -/

namespace Sys2Proof.Machine

/-! ## The invariant -/

/-- COND is 0x0000 or one of the three one-hot values (R21, R23). -/
abbrev State.condLegal (s : State) : Prop :=
  s.cond = 0 ∨ s.cond = flagN ∨ s.cond = flagZ ∨ s.cond = flagP

/-- Exactly one flag is set (R23). -/
abbrev State.condOneHot (s : State) : Prop := s.cond = flagN ∨ s.cond = flagZ ∨ s.cond = flagP

/-- The vector is outside 0x20 to 0x27 (R117). -/
abbrev unmappedVector (v : BitVec 8) : Prop := v.toNat < 0x20 ∨ 0x27 < v.toNat

/-- Stop information stands only on a machine with `TRAP_UNMAPPED = FAULT`, names a vector outside the table, and RUN
is still 1 (R138). -/
abbrev State.stopLegal (s : State) : Prop :=
  match s.stop with
  | none => True
  | some (.trapVectorUnmapped v) => s.config.trapUnmapped = .fault ∧ s.run = true ∧ unmappedVector v

/-- The states a run stays in: memory in its canonical form, COND a legal value, the stop information legal. -/
structure State.Inv (s : State) : Prop where
  mem  : s.mem.wf = true
  cond : s.condLegal
  stop : s.stopLegal

/-! ## What an instruction may write -/

/-- The general registers an instruction may write, and no other writes one (R17): R0 by the services GETC, IN and
INU16, R7 by JSR and JSRR, DR by the instructions that have one. -/
def mayDefine : Instr → List Reg
  | .br _ _ => []
  | .addReg dr _ _ => [dr]
  | .addImm dr _ _ => [dr]
  | .ld dr _ => [dr]
  | .st _ _ => []
  | .jsr _ => [.r7]
  | .jsrr _ => [.r7]
  | .andReg dr _ _ => [dr]
  | .andImm dr _ _ => [dr]
  | .ldr dr _ _ => [dr]
  | .str _ _ _ => []
  | .rti => []
  | .not dr _ => [dr]
  | .ldi dr _ => [dr]
  | .sti _ _ => []
  | .jmp _ => []
  | .res => []
  | .lea dr _ => [dr]
  | .trap v => if v = 0x20 ∨ v = 0x23 ∨ v = 0x26 then [.r0] else []

/-- The instructions that call `update_flags` (R88). -/
def callsUpdateFlags : Instr → Bool
  | .br _ _ => false
  | .addReg _ _ _ => true
  | .addImm _ _ _ => true
  | .ld _ _ => true
  | .st _ _ => false
  | .jsr _ => false
  | .jsrr _ => false
  | .andReg _ _ _ => true
  | .andImm _ _ _ => true
  | .ldr _ _ _ => true
  | .str _ _ _ => false
  | .rti => false
  | .not _ _ => true
  | .ldi _ _ => true
  | .sti _ _ => false
  | .jmp _ => false
  | .res => false
  | .lea _ _ => true
  | .trap _ => false

/-- The control-transfer instructions, the only ones whose handler writes PC (R19). -/
def transfersControl : Instr → Bool
  | .br _ _ => true
  | .addReg _ _ _ => false
  | .addImm _ _ _ => false
  | .ld _ _ => false
  | .st _ _ => false
  | .jsr _ => true
  | .jsrr _ => true
  | .andReg _ _ _ => false
  | .andImm _ _ _ => false
  | .ldr _ _ _ => false
  | .str _ _ _ => false
  | .rti => false
  | .not _ _ => false
  | .ldi _ _ => false
  | .sti _ _ => false
  | .jmp _ => true
  | .res => false
  | .lea _ _ => false
  | .trap _ => false

/-- The instruction whose handler may use the character I/O port (R85, R119). -/
def isTrap : Instr → Bool
  | .br _ _ => false
  | .addReg _ _ _ => false
  | .addImm _ _ _ => false
  | .ld _ _ => false
  | .st _ _ => false
  | .jsr _ => false
  | .jsrr _ => false
  | .andReg _ _ _ => false
  | .andImm _ _ _ => false
  | .ldr _ _ _ => false
  | .str _ _ _ => false
  | .rti => false
  | .not _ _ => false
  | .ldi _ _ => false
  | .sti _ _ => false
  | .jmp _ => false
  | .res => false
  | .lea _ _ => false
  | .trap _ => true

/-! ## Frame predicates -/

/-- Every general register outside `rs` is unchanged. -/
def RegsSameExcept (rs : List Reg) (s t : State) : Prop := ∀ r, r ∉ rs → t.reg r = s.reg r

/-- Every word of memory is unchanged. -/
def MemSame (s t : State) : Prop := ∀ a : Word, t.memRead a = s.memRead a

/-- Every word of memory but the one at `ea` is unchanged. -/
def MemSameExcept (ea : Word) (s t : State) : Prop := ∀ a : Word, a ≠ ea → t.memRead a = s.memRead a

/-- The input side of the character I/O port is unchanged. -/
def InputSame (s t : State) : Prop := t.input = s.input ∧ t.inputTail = s.inputTail ∧ t.draws = s.draws

/-- Both sides of the character I/O port are unchanged. -/
def PortSame (s t : State) : Prop := InputSame s t ∧ t.output = s.output

/-- RUN, the stop information and the parameters are unchanged. -/
def ControlSame (s t : State) : Prop := t.run = s.run ∧ t.stop = s.stop ∧ t.config = s.config

/-- The frame of an instruction that writes one general register and the flags: everything else is unchanged. -/
def DefinesOnly (dr : Reg) (s t : State) : Prop :=
  RegsSameExcept [dr] s t ∧ t.pc = s.pc ∧ MemSame s t ∧ PortSame s t ∧ ControlSame s t

/-- The frame of an instruction that stores one word at `ea`: everything else is unchanged. -/
def StoresOnly (ea : Word) (s t : State) : Prop :=
  RegsSameExcept [] s t ∧ t.pc = s.pc ∧ t.cond = s.cond ∧ MemSameExcept ea s t ∧ PortSame s t ∧ ControlSame s t

/-- The frame of a control transfer that may write the registers `rs`: everything else but PC is unchanged. -/
def TransfersOnly (rs : List Reg) (s t : State) : Prop :=
  RegsSameExcept rs s t ∧ t.cond = s.cond ∧ MemSame s t ∧ PortSame s t ∧ ControlSame s t

/-- The frame of a trap service that may write the registers `rs` and the port: everything else is unchanged. -/
def ServesOnly (rs : List Reg) (s t : State) : Prop :=
  RegsSameExcept rs s t ∧ t.pc = s.pc ∧ t.cond = s.cond ∧ MemSame s t ∧ ControlSame s t

end Sys2Proof.Machine
end

