-- ==== Sys2Proof/Certificates/Slice0/Obligations.lean ====
section
/-! DEFINITION. The statements for the provers. PC of a state an instruction runs in is the incremented PC (R82), the
address of the instruction plus 1. -/

open Sys2Proof Sys2Proof.Machine

/-! ## Encoding and decoding -/

/-- Words the spec spells out for each family (the examples of R79 and R96 to R115) decode to their instructions. -/
def Obligations.SpecExampleWordsDecode : Prop :=
  decode 0x1025 = .addImm .r0 .r0 5 ∧
  decode 0x123D = .addImm .r1 .r0 0x1D ∧
  decode 0x1283 = .addReg .r1 .r2 .r3 ∧
  decode 0x5642 = .andReg .r3 .r1 .r2 ∧
  decode 0x5020 = .andImm .r0 .r0 0 ∧
  decode 0x94BF = .not .r2 .r2 ∧
  decode 0x21FF = .ld .r0 0x1FF ∧
  decode 0x3202 = .st .r1 2 ∧
  decode 0x647F = .ldr .r2 .r1 0x3F ∧
  decode 0x7041 = .str .r0 .r1 1 ∧
  decode 0xA601 = .ldi .r3 1 ∧
  decode 0xB801 = .sti .r4 1 ∧
  decode 0xEB00 = .lea .r5 0x100 ∧
  decode 0x03FD = .br 0b001 0x1FD ∧
  decode 0x4804 = .jsr 4 ∧
  decode 0x40C0 = .jsrr .r3 ∧
  decode 0xC080 = .jmp .r2 ∧
  decode 0x8000 = .rti ∧
  decode 0xDFFF = .res ∧
  decode 0xF025 = .trap 0x25

/-- R48 to R59: the value of each field is that of its bits of the word, the register named by a 3-bit field is the one
of that number (R16). -/
def Obligations.FieldsAreTheirBits : Prop :=
  ∀ w : Word,
    (opField w).toNat = w.toNat / 4096 ∧
    (drField w).number = w.toNat / 512 % 8 ∧
    (nzpField w).toNat = w.toNat / 512 % 8 ∧
    (longFlag w).toNat = w.toNat / 2048 % 2 ∧
    (sr1Field w).number = w.toNat / 64 % 8 ∧
    (sr2Field w).number = w.toNat % 8 ∧
    (immFlag w).toNat = w.toNat / 32 % 2 ∧
    (imm5Field w).toNat = w.toNat % 32 ∧
    (offset6Field w).toNat = w.toNat % 64 ∧
    (offset9Field w).toNat = w.toNat % 512 ∧
    (offset11Field w).toNat = w.toNat % 2048 ∧
    (trapvect8Field w).toNat = w.toNat % 256

/-- Decoding the word of a well-formed instruction gives it back, with every operand at every value (R62, R79). -/
def Obligations.DecodeOfEncodeIsTheInstruction : Prop :=
  ∀ i : Instr, i.wellFormed = true → decode (encode i) = i

/-- Encoding what a word decodes to gives the word with its ignored bits 0: no other bit of a word is dropped
(R62, R63, R71). That NOT too is encoded with 0 in w[5:0] is the model's choice (log entry 16). -/
def Obligations.EncodeOfDecodeClearsIgnoredBits : Prop :=
  ∀ w : Word, encode (decode w) = w &&& ~~~(ignoredBits (decode w))

/-- R63: the list of ignored bits, and that two words decode to the same instruction exactly when they agree outside
them. -/
def Obligations.IgnoredBitsChangeNothing : Prop :=
  (∀ dr s1 s2, ignoredBits (.addReg dr s1 s2) = 0x0018 ∧ ignoredBits (.andReg dr s1 s2) = 0x0018) ∧
  (∀ dr s1, ignoredBits (.not dr s1) = 0x003F) ∧
  (∀ base, ignoredBits (.jsrr base) = 0x063F) ∧
  (∀ base, ignoredBits (.jmp base) = 0x0E3F) ∧
  (∀ v, ignoredBits (.trap v) = 0x0F00) ∧
  ignoredBits .rti = 0x0FFF ∧ ignoredBits .res = 0x0FFF ∧
  ∀ w w' : Word,
    decode w' = decode w ↔ w' &&& ~~~(ignoredBits (decode w)) = w &&& ~~~(ignoredBits (decode w))

/-- R64 to R66: each of the 65536 words matches the mask and match of exactly one row of the opcode table, and decodes
to an instruction of that row. -/
def Obligations.EveryWordMatchesExactlyOneRow : Prop :=
  ∀ w : Word, ∃ r ∈ opcodeTable, w &&& r.2.1 = r.2.2 ∧ r.1 = (decode w).rowName ∧
    ∀ q ∈ opcodeTable, w &&& q.2.1 = q.2.2 → q = r

/-- R10: sign extension at the four widths used and zero extension of 8 bits, by the rule's sums. -/
def Obligations.ExtensionsFollowTheirSums : Prop :=
  (∀ f : BitVec 5, (sext f).toNat = if f.msb then f.toNat + (65536 - 2 ^ 5) else f.toNat) ∧
  (∀ f : BitVec 6, (sext f).toNat = if f.msb then f.toNat + (65536 - 2 ^ 6) else f.toNat) ∧
  (∀ f : BitVec 9, (sext f).toNat = if f.msb then f.toNat + (65536 - 2 ^ 9) else f.toNat) ∧
  (∀ f : BitVec 11, (sext f).toNat = if f.msb then f.toNat + (65536 - 2 ^ 11) else f.toNat) ∧
  (∀ f : BitVec 8, (zext f).toNat = f.toNat)

/-- R75 and R76: a label within reach, assembled at address `A`, is the address the instruction's adder forms when it
runs at `A`, for the 9-bit and for the 11-bit offset. -/
def Obligations.AssembledLabelIsTheAddressFormed : Prop :=
  ∀ (A T : Word) (s : State), s.pc = A + 1 →
    (∀ dr : Reg, (Source.ld dr (.label T)).wellFormed A = true →
      ∃ off, (Source.ld dr (.label T)).instr A = .ld dr off ∧ pcPlus9 s off = T) ∧
    ((Source.jsr (.label T)).wellFormed A = true →
      ∃ off, (Source.jsr (.label T)).instr A = .jsr off ∧ pcPlus11 s off = T)

/-- R77: a decimal immediate or offset that fits its field is the value the instruction's operand has. That a PC-relative
operand may be written so is the model's reading of the spec's examples (log entry 17). -/
def Obligations.AssembledImmediateIsTheOperandValue : Prop :=
  ∀ (A : Word) (dr sr1 : Reg) (n : Int),
    ((Source.addImm dr sr1 n).wellFormed A = true →
      ∃ imm5, (Source.addImm dr sr1 n).instr A = .addImm dr sr1 imm5 ∧ (sext imm5).toInt = n) ∧
    ((Source.ldr dr sr1 n).wellFormed A = true →
      ∃ off6, (Source.ldr dr sr1 n).instr A = .ldr dr sr1 off6 ∧ (sext off6).toInt = n) ∧
    ((Source.ld dr (.offset n)).wellFormed A = true →
      ∃ off9, (Source.ld dr (.offset n)).instr A = .ld dr off9 ∧ (sext off9).toInt = n) ∧
    ((Source.jsr (.offset n)).wellFormed A = true →
      ∃ off11, (Source.jsr (.offset n)).instr A = .jsr off11 ∧ (sext off11).toInt = n)

/-! ## Memory and flags -/

/-- Two memories in canonical form that hold the same word at each of the 65536 addresses are equal (R28). -/
def Obligations.CanonicalMemoryIsItsContents : Prop :=
  ∀ m m' : Memory, m.wf = true → m'.wf = true → (∀ a : Word, m.read a.toNat = m'.read a.toNat) → m = m'

/-- R87: the flag update, by the rule's three cases; nothing but COND changes. -/
def Obligations.UpdateFlagsClassifiesTheRegister : Prop :=
  ∀ (s : State) (i : Reg),
    (s.updateFlags i).cond =
      (if s.reg i = 0x0000 then 0x0002 else if (s.reg i).getLsbD 15 then 0x0004 else 0x0001) ∧
    s.updateFlags i = { s with cond := (s.updateFlags i).cond }

/-- R23: COND is 0x0000 at the start and stays so until an instruction that updates the flags, which leaves exactly one
set; from then on every step leaves exactly one set. -/
def Obligations.OneFlagFromTheFirstUpdateOn : Prop :=
  State.reset.cond = 0 ∧
  (∀ (i : Instr) (s t : State), callsUpdateFlags i = false → s.cond = 0 → exec i s = .next t → t.cond = 0) ∧
  (∀ (i : Instr) (s t : State), callsUpdateFlags i = true → exec i s = .next t → t.condOneHot) ∧
  ∀ s t : State, step s = .next t → s.condOneHot → t.condOneHot

/-! ## Operate instructions -/

/-- R96: ADD, register mode. -/
def Obligations.AddRegisterMode : Prop :=
  (∀ w : Word, w &&& 0xF020 = 0x1000 → decode w = .addReg (drField w) (sr1Field w) (sr2Field w)) ∧
  ∀ (dr sr1 sr2 : Reg) (s : State), ∃ t, exec (.addReg dr sr1 sr2) s = .next t ∧
    (t.reg dr).toNat = ((s.reg sr1).toNat + (s.reg sr2).toNat) % 65536 ∧
    t.cond = flagsOf (t.reg dr) ∧ DefinesOnly dr s t

/-- R97: ADD, immediate mode. -/
def Obligations.AddImmediateMode : Prop :=
  (∀ w : Word, w &&& 0xF020 = 0x1020 → decode w = .addImm (drField w) (sr1Field w) (imm5Field w)) ∧
  ∀ (dr sr1 : Reg) (imm5 : BitVec 5) (s : State), ∃ t, exec (.addImm dr sr1 imm5) s = .next t ∧
    (t.reg dr).toNat = ((s.reg sr1).toNat + (sext imm5).toNat) % 65536 ∧
    t.cond = flagsOf (t.reg dr) ∧ DefinesOnly dr s t

/-- R98: AND, register mode. -/
def Obligations.AndRegisterMode : Prop :=
  (∀ w : Word, w &&& 0xF020 = 0x5000 → decode w = .andReg (drField w) (sr1Field w) (sr2Field w)) ∧
  ∀ (dr sr1 sr2 : Reg) (s : State), ∃ t, exec (.andReg dr sr1 sr2) s = .next t ∧
    (∀ k, (t.reg dr).getLsbD k = ((s.reg sr1).getLsbD k && (s.reg sr2).getLsbD k)) ∧
    t.cond = flagsOf (t.reg dr) ∧ DefinesOnly dr s t

/-- R99: AND, immediate mode. -/
def Obligations.AndImmediateMode : Prop :=
  (∀ w : Word, w &&& 0xF020 = 0x5020 → decode w = .andImm (drField w) (sr1Field w) (imm5Field w)) ∧
  ∀ (dr sr1 : Reg) (imm5 : BitVec 5) (s : State), ∃ t, exec (.andImm dr sr1 imm5) s = .next t ∧
    (∀ k, (t.reg dr).getLsbD k = ((s.reg sr1).getLsbD k && (sext imm5).getLsbD k)) ∧
    t.cond = flagsOf (t.reg dr) ∧ DefinesOnly dr s t

/-- R100: NOT. -/
def Obligations.NotComplements : Prop :=
  (∀ w : Word, w &&& 0xF000 = 0x9000 → decode w = .not (drField w) (sr1Field w)) ∧
  ∀ (dr sr1 : Reg) (s : State), ∃ t, exec (.not dr sr1) s = .next t ∧
    (t.reg dr).toNat + (s.reg sr1).toNat = 65535 ∧
    t.cond = flagsOf (t.reg dr) ∧ DefinesOnly dr s t

/-! ## Data movement -/

/-- R101: LD. -/
def Obligations.LdLoadsPcRelative : Prop :=
  (∀ w : Word, w &&& 0xF000 = 0x2000 → decode w = .ld (drField w) (offset9Field w)) ∧
  ∀ (dr : Reg) (off : BitVec 9) (s : State), ∃ t, exec (.ld dr off) s = .next t ∧
    t.reg dr = s.memRead (s.pc + sext off) ∧
    t.cond = flagsOf (t.reg dr) ∧ DefinesOnly dr s t

/-- R102: ST. -/
def Obligations.StStoresPcRelative : Prop :=
  (∀ w : Word, w &&& 0xF000 = 0x3000 → decode w = .st (drField w) (offset9Field w)) ∧
  ∀ (sr : Reg) (off : BitVec 9) (s : State), s.mem.wf = true → ∃ t, exec (.st sr off) s = .next t ∧
    t.memRead (s.pc + sext off) = s.reg sr ∧ StoresOnly (s.pc + sext off) s t

/-- R103: LDR. The address is formed from the old base register. -/
def Obligations.LdrLoadsBaseRelative : Prop :=
  (∀ w : Word, w &&& 0xF000 = 0x6000 → decode w = .ldr (drField w) (sr1Field w) (offset6Field w)) ∧
  ∀ (dr base : Reg) (off : BitVec 6) (s : State), ∃ t, exec (.ldr dr base off) s = .next t ∧
    t.reg dr = s.memRead (s.reg base + sext off) ∧
    t.cond = flagsOf (t.reg dr) ∧ DefinesOnly dr s t

/-- R104: STR. -/
def Obligations.StrStoresBaseRelative : Prop :=
  (∀ w : Word, w &&& 0xF000 = 0x7000 → decode w = .str (drField w) (sr1Field w) (offset6Field w)) ∧
  ∀ (sr base : Reg) (off : BitVec 6) (s : State), s.mem.wf = true → ∃ t, exec (.str sr base off) s = .next t ∧
    t.memRead (s.reg base + sext off) = s.reg sr ∧ StoresOnly (s.reg base + sext off) s t

/-- R105: LDI. -/
def Obligations.LdiLoadsIndirect : Prop :=
  (∀ w : Word, w &&& 0xF000 = 0xA000 → decode w = .ldi (drField w) (offset9Field w)) ∧
  ∀ (dr : Reg) (off : BitVec 9) (s : State), ∃ t, exec (.ldi dr off) s = .next t ∧
    t.reg dr = s.memRead (s.memRead (s.pc + sext off)) ∧
    t.cond = flagsOf (t.reg dr) ∧ DefinesOnly dr s t

/-- R106: STI. The pointer is read once, before the write. -/
def Obligations.StiStoresIndirect : Prop :=
  (∀ w : Word, w &&& 0xF000 = 0xB000 → decode w = .sti (drField w) (offset9Field w)) ∧
  ∀ (sr : Reg) (off : BitVec 9) (s : State), s.mem.wf = true → ∃ t, exec (.sti sr off) s = .next t ∧
    t.memRead (s.memRead (s.pc + sext off)) = s.reg sr ∧ StoresOnly (s.memRead (s.pc + sext off)) s t

/-- R107: LEA. -/
def Obligations.LeaFormsTheAddress : Prop :=
  (∀ w : Word, w &&& 0xF000 = 0xE000 → decode w = .lea (drField w) (offset9Field w)) ∧
  ∀ (dr : Reg) (off : BitVec 9) (s : State), ∃ t, exec (.lea dr off) s = .next t ∧
    (t.reg dr).toNat = (s.pc.toNat + (sext off).toNat) % 65536 ∧ accesses (.lea dr off) s = [] ∧
    t.cond = flagsOf (t.reg dr) ∧ DefinesOnly dr s t

/-! ## Control transfer -/

/-- R108: BR under both predicates. -/
def Obligations.BrTransfersWhenTaken : Prop :=
  (∀ w : Word, w &&& 0xF000 = 0x0000 → decode w = .br (nzpField w) (offset9Field w)) ∧
  ∀ (nzp : BitVec 3) (off : BitVec 9) (s : State), ∃ t, exec (.br nzp off) s = .next t ∧
    (s.config.brPredicate = .nonzero →
      t.pc = if s.cond &&& zext nzp ≠ 0 then s.pc + sext off else s.pc) ∧
    (s.config.brPredicate = .equalsOne →
      t.pc = if s.cond &&& zext nzp = 1 then s.pc + sext off else s.pc) ∧
    TransfersOnly [] s t

/-- The outcome table of R108: for each value of COND and each mask, whether a BR is taken under each predicate. -/
def Obligations.BranchOutcomeTable : Prop :=
  (∀ (p : BrPredicate) (nzp : BitVec 3), branchTaken p 0x0000 nzp = false) ∧
  (∀ (p : BrPredicate) (cond : Word), branchTaken p cond 0b000 = false) ∧
  (∀ nzp : BitVec 3, branchTaken .nonzero 0x0004 nzp = nzp.getLsbD 2) ∧
  (∀ nzp : BitVec 3, branchTaken .nonzero 0x0002 nzp = nzp.getLsbD 1) ∧
  (∀ nzp : BitVec 3, branchTaken .nonzero 0x0001 nzp = nzp.getLsbD 0) ∧
  (∀ nzp : BitVec 3, branchTaken .equalsOne 0x0004 nzp = false) ∧
  (∀ nzp : BitVec 3, branchTaken .equalsOne 0x0002 nzp = false) ∧
  (∀ nzp : BitVec 3, branchTaken .equalsOne 0x0001 nzp = nzp.getLsbD 0)

/-- R109: JSR. -/
def Obligations.JsrLinksAndTransfers : Prop :=
  (∀ w : Word, w &&& 0xF800 = 0x4800 → decode w = .jsr (offset11Field w)) ∧
  ∀ (off : BitVec 11) (s : State), ∃ t, exec (.jsr off) s = .next t ∧
    t.reg .r7 = s.pc ∧ t.pc = s.pc + sext off ∧ TransfersOnly [.r7] s t

/-- R110: JSRR under both orders of the link write and the base read. -/
def Obligations.JsrrLinksAndTransfers : Prop :=
  (∀ w : Word, w &&& 0xF800 = 0x4000 → decode w = .jsrr (sr1Field w)) ∧
  ∀ (base : Reg) (s : State), ∃ t, exec (.jsrr base) s = .next t ∧
    t.reg .r7 = s.pc ∧
    (s.config.jsrrOrder = .linkFirst → t.pc = if base = .r7 then s.pc else s.reg base) ∧
    (s.config.jsrrOrder = .targetFirst → t.pc = s.reg base) ∧
    TransfersOnly [.r7] s t

/-- R111: JMP. -/
def Obligations.JmpTransfers : Prop :=
  (∀ w : Word, w &&& 0xF000 = 0xC000 → decode w = .jmp (sr1Field w)) ∧
  ∀ (base : Reg) (s : State), ∃ t, exec (.jmp base) s = .next t ∧ t.pc = s.reg base ∧ TransfersOnly [] s t

/-- R112: `RET` is the word 0xC1C0, a JMP with BaseR = 7, and it returns to the address after the call, whatever the
called code did so long as it left R7 alone. -/
def Obligations.RetReturnsToTheAddressAfterTheCall : Prop :=
  decode 0xC1C0 = .jmp .r7 ∧
  ∀ (call : Instr) (s t u : State), (∃ off, call = .jsr off) ∨ (∃ base, call = .jsrr base) →
    exec call s = .next t → u.reg .r7 = t.reg .r7 → ∃ v, exec (.jmp .r7) u = .next v ∧ v.pc = s.pc

/-! ## RTI, RES and TRAP -/

/-- R113 and R114: every word of opcode 8 and of opcode 13 decodes to RTI and RES, and the step of one changes nothing
but PC, which is incremented, and makes no access but its fetch. -/
def Obligations.RtiAndResOnlyAdvancePc : Prop :=
  (∀ w : Word, w &&& 0xF000 = 0x8000 → decode w = .rti) ∧
  (∀ w : Word, w &&& 0xF000 = 0xD000 → decode w = .res) ∧
  (∀ s : State, exec .rti s = .next s ∧ exec .res s = .next s) ∧
  ∀ s : State, s.run = true → s.stop = none → (decode (s.memRead s.pc) = .rti ∨ decode (s.memRead s.pc) = .res) →
    step s = .next { s with pc := s.pc + 1 } ∧ stepAccesses s = [.read s.pc]

/-- GETC (R126) for each thing the input device can do. How State lists the device's answers, and the fault that stands
for a read that never returns, are the model's choice (log entries 3, 6 and 10); the last clause is for an answer no
state lists, a free draw (log entry 4), and holds for every draw. -/
def Obligations.GetcReadsAByte : Prop :=
  ∀ s : State,
    (∀ b rest, s.input = .byte b :: rest → ∃ t, exec (.trap 0x20) s = .next t ∧
      (t.reg .r0).toNat = b.toNat ∧ t.input = rest ∧ t.inputTail = s.inputTail ∧ t.draws = s.draws ∧
      t.output = s.output ∧ ServesOnly [.r0] s t) ∧
    (∀ rest, s.input = .failure :: rest → exec (.trap 0x20) s = .next { s with input := rest }) ∧
    (s.input = [] → s.inputTail = .ended → exec (.trap 0x20) s = .next s) ∧
    (s.input = [] → s.inputTail = .stalled → exec (.trap 0x20) s = .fault .blockedOnInput) ∧
    (s.input = [] → s.inputTail = .unknown →
      (∃ (b : Byte) (t : State), exec (.trap 0x20) s = .next t ∧ (t.reg .r0).toNat = b.toNat ∧ t.input = [] ∧
        t.inputTail = .unknown ∧ t.output = s.output ∧ ServesOnly [.r0] s t) ∨
      (∃ t, exec (.trap 0x20) s = .next t ∧ t.input = [] ∧ t.inputTail = .unknown ∧ t.output = s.output ∧
        ServesOnly [] s t) ∨
      exec (.trap 0x20) s = .fault .blockedOnInput)

/-- R127: OUT. -/
def Obligations.OutWritesTheLowByte : Prop :=
  ∀ s : State, ∃ t b, exec (.trap 0x21) s = .next t ∧ b.toNat = (s.reg .r0).toNat % 256 ∧
    t.output = s.output ++ [.byte b, .flush] ∧ InputSame s t ∧ ServesOnly [] s t

/-- PUTS (R128) writes the low byte of each word from R0 up to the first 0x0000, the address modulo 65536, and flushes;
if any word of memory is 0x0000 it completes. If none is, the step never ends, which the model says by the fault
`endlessPuts` (its choice, log entry 10). The state inside the step after `k` words is `insidePuts k`: only the output
differs, and it has `k` bytes more, so a PUTS that never ends writes without end (R137); a PUTS that ends flushes there. -/
def Obligations.PutsWritesTheString : Prop :=
  (∀ (s : State) (n : Nat), n < 65536 →
    (∀ k, k < n → s.memRead (s.reg .r0 + BitVec.ofNat 16 k) ≠ 0) →
    s.memRead (s.reg .r0 + BitVec.ofNat 16 n) = 0 →
    ∃ t, exec (.trap 0x22) s = .next t ∧ t = (s.insidePuts n).ioFlush ∧
      t.output = s.output ++
        (List.range n).map (fun k => .byte ((s.memRead (s.reg .r0 + BitVec.ofNat 16 k)).setWidth 8)) ++ [.flush] ∧
      InputSame s t ∧ ServesOnly [] s t) ∧
  (∀ (s : State) (a : Word), s.memRead a = 0 → ∃ t, exec (.trap 0x22) s = .next t) ∧
  (∀ s : State, (∀ a : Word, s.memRead a ≠ 0) → exec (.trap 0x22) s = .fault .endlessPuts) ∧
  ∀ (s : State) (n : Nat),
    s.insidePuts n =
      { s with output := s.output ++
          (List.range n).map (fun k => .byte ((s.memRead (s.reg .r0 + BitVec.ofNat 16 k)).setWidth 8)) } ∧
    (s.insidePuts n).output.length = s.output.length + n

/-- IN (R129) for each thing the input device can do. How State lists the device's answers, and the fault that stands
for a read that never returns, are the model's choice (log entries 3, 6 and 10); the last clause is for a free draw (log
entry 4) and holds for every draw. -/
def Obligations.InReadsAndEchoesAByte : Prop :=
  ∀ s : State,
    (∀ b rest, s.input = .byte b :: rest → ∃ t, exec (.trap 0x23) s = .next t ∧
      (t.reg .r0).toNat = b.toNat ∧ t.input = rest ∧ t.inputTail = s.inputTail ∧ t.draws = s.draws ∧
      t.output = s.output ++ [.byte b, .flush] ∧ ServesOnly [.r0] s t) ∧
    (∀ rest, s.input = .failure :: rest → exec (.trap 0x23) s = .next { s with input := rest }) ∧
    (s.input = [] → s.inputTail = .ended → exec (.trap 0x23) s = .next s) ∧
    (s.input = [] → s.inputTail = .stalled → exec (.trap 0x23) s = .fault .blockedOnInput) ∧
    (s.input = [] → s.inputTail = .unknown →
      (∃ (b : Byte) (t : State), exec (.trap 0x23) s = .next t ∧ (t.reg .r0).toNat = b.toNat ∧ t.input = [] ∧
        t.inputTail = .unknown ∧ t.output = s.output ++ [.byte b, .flush] ∧ ServesOnly [.r0] s t) ∨
      (∃ t, exec (.trap 0x23) s = .next t ∧ t.input = [] ∧ t.inputTail = .unknown ∧ t.output = s.output ∧
        ServesOnly [] s t) ∨
      exec (.trap 0x23) s = .fault .blockedOnInput)

/-- R130 and R131: PUTSP is a no-op that reads no memory; HALT clears RUN and nothing else, and the CORE is then
`Halted` and makes no further access. -/
def Obligations.PutspDoesNothingAndHaltClearsRun : Prop :=
  ∀ s : State,
    exec (.trap 0x24) s = .next s ∧ accesses (.trap 0x24) s = [] ∧
    ∃ t, exec (.trap 0x25) s = .next t ∧ t = { s with run := false } ∧
      (s.stop = none → t.loopState = .halted) ∧ stepAccesses t = []

/-- INU16 (R132) on a line of the listed input (with or without its 0x0A), on a failing read, on an input at its end, and
on a device that never answers. `body` is the line without its terminator. How State lists the device's answers, and the
fault that stands for a read that never returns, are the model's choice (log entries 3, 6 and 10). -/
def Obligations.Inu16ReadsALine : Prop :=
  ∀ (s : State) (body : List Byte) (rest : List InputItem), (0x0A : Byte) ∉ body →
    (s.input = (body ++ [0x0A]).map .byte ++ rest →
      (∀ n, parseU16 s.config.inu16AllowPlus (body ++ [0x0A]) = some n →
        exec (.trap 0x26) s = .next ({ s with input := rest }.setReg .r0 n)) ∧
      (parseU16 s.config.inu16AllowPlus (body ++ [0x0A]) = none →
        exec (.trap 0x26) s = .next { s with input := rest })) ∧
    (s.input = body.map .byte ++ .failure :: rest → exec (.trap 0x26) s = .next { s with input := rest }) ∧
    (s.input = body.map .byte → s.inputTail = .ended →
      (∀ n, body ≠ [] → parseU16 s.config.inu16AllowPlus body = some n →
        exec (.trap 0x26) s = .next ({ s with input := [] }.setReg .r0 n)) ∧
      (body = [] ∨ parseU16 s.config.inu16AllowPlus body = none →
        exec (.trap 0x26) s = .next { s with input := [] })) ∧
    (s.input = body.map .byte → s.inputTail = .stalled → exec (.trap 0x26) s = .fault .blockedOnInput)

/-- INU16 when the rest of the line is an answer no state lists, a free draw (log entries 4 and 5, the model's choice): a
number, R0 unchanged, or no answer ever; nothing but R0 and the input changes. It holds for every draw. -/
def Obligations.Inu16OnAnUnlistedLine : Prop :=
  ∀ (s : State) (body : List Byte), (0x0A : Byte) ∉ body → s.input = body.map .byte → s.inputTail = .unknown →
    (∃ t, exec (.trap 0x26) s = .next t ∧ t.input = [] ∧ t.output = s.output ∧ ServesOnly [.r0] s t ∧
      (t.reg .r0 = s.reg .r0 ∨
        ∃ more, parseU16 s.config.inu16AllowPlus (body ++ more) = some (t.reg .r0))) ∨
    exec (.trap 0x26) s = .fault .blockedOnInput

/-- R133: the lines INU16 accepts, and the number each stands for: digits, at most one leading '+' where the parameter
allows it, whitespace around them, a value of 65535 at most. -/
def Obligations.ParseAcceptsExactlyTheDecimalLines : Prop :=
  ∀ (allowPlus : Bool) (s : List Byte) (n : Word),
    parseU16 allowPlus s = some n ↔
      ∃ before plus digits after,
        s = before ++ plus ++ digits ++ after ∧
        (∀ b ∈ before ++ after, b ∈ ([0x09, 0x0A, 0x0B, 0x0C, 0x0D, 0x20] : List Byte)) ∧
        (plus = [] ∨ (allowPlus = true ∧ plus = [0x2B])) ∧
        digits ≠ [] ∧ (∀ b ∈ digits, 0x30 ≤ b.toNat ∧ b.toNat ≤ 0x39) ∧
        digits.foldl (fun acc b => acc * 10 + (b.toNat - 0x30)) 0 = n.toNat

/-- R134: OUTU16 prints the decimal digits of R0 read as unsigned, without leading zeros, then 0x0A, then flushes. -/
def Obligations.Outu16PrintsUnsignedDecimal : Prop :=
  ∀ s : State, ∃ t digits, exec (.trap 0x27) s = .next t ∧
    t.output = s.output ++ digits.map .byte ++ [.byte 0x0A, .flush] ∧
    digits ≠ [] ∧ (∀ b ∈ digits, 0x30 ≤ b.toNat ∧ b.toNat ≤ 0x39) ∧
    digits.foldl (fun acc b => acc * 10 + (b.toNat - 0x30)) 0 = (s.reg .r0).toNat ∧
    (digits.head? = some 0x30 → digits = [0x30]) ∧
    InputSame s t ∧ ServesOnly [] s t

/-- What OUTU16 prints, INU16 reads back (R132 to R134). -/
def Obligations.PrintedNumberReadsBack : Prop :=
  ∀ (allowPlus : Bool) (v : Word), parseU16 allowPlus (decimalDigits v ++ [0x0A]) = some v

/-- A vector outside 0x20 to 0x27 is a no-op under `TRAP_UNMAPPED = NOP` (R117); under `FAULT` it is the stop of R138,
which the model takes as a next state that records the stop information (log entry 11). -/
def Obligations.UnmappedTrap : Prop :=
  ∀ (v : BitVec 8) (s : State), unmappedVector v →
    (s.config.trapUnmapped = .nop → exec (.trap v) s = .next s) ∧
    (s.config.trapUnmapped = .fault →
      exec (.trap v) s = .next { s with stop := some (.trapVectorUnmapped v) })

/-- R138 and R139: under `TRAP_UNMAPPED = FAULT` a step whose TRAP has an unmapped vector ends with PC = TRAP address + 1, the
cause code 1 and the vector recorded, RUN still 1 and all else unchanged; the CORE is `Faulted` and performs no further
step: asked for one, the model answers the same state (its choice, log entry 8). -/
def Obligations.UnmappedTrapStopsTheCore : Prop :=
  ∀ (v : BitVec 8) (s : State), s.run = true → s.stop = none → s.config.trapUnmapped = .fault → unmappedVector v →
    decode (s.memRead s.pc) = .trap v →
    ∃ t, step s = .next t ∧ t = { s with pc := s.pc + 1, stop := some (.trapVectorUnmapped v) } ∧
      t.stopCause = some (1, some v) ∧ t.run = true ∧ t.loopState = .faulted ∧ step t = .next t ∧ stepAccesses t = []

/-- R115: the words of TRAP. The ignored bits w[11:8] do not matter, and TRAP leaves R7 and PC as they are. -/
def Obligations.TrapNeitherLinksNorJumps : Prop :=
  (∀ w : Word, w &&& 0xF000 = 0xF000 → decode w = .trap (trapvect8Field w)) ∧
  ∀ (v : BitVec 8) (s t : State), exec (.trap v) s = .next t →
    t.reg .r7 = s.reg .r7 ∧ t.pc = s.pc ∧ t.cond = s.cond ∧ MemSame s t

/-! ## The step -/

/-- R92: a running CORE's step is the handler of the word at PC, run with PC incremented. -/
def Obligations.StepRunsTheDecodedInstruction : Prop :=
  ∀ (s : State) (i : Instr), s.run = true → s.stop = none → decode (s.memRead s.pc) = i →
    i.wellFormed = true ∧ step s = exec i { s with pc := s.pc + 1 }

/-- A halted CORE performs no step (R93), and neither does a faulted one (R138): no access and no change of any state.
That the model answers the same state, rather than none, is its choice (log entry 8). -/
def Obligations.StoppedCoreChangesNothing : Prop :=
  ∀ s : State, (s.run = false ∨ s.stop ≠ none) → step s = .next s ∧ stepAccesses s = []

/-- R86, R131 and R162: a step that executes HALT completes with PC = HALT address + 1, RUN = 0, everything else as it was,
and is the last: the CORE is `Halted` with cause code 0 (R139, a code the spec marks as its own, decision D26). Asked for
more steps, the model answers the same state (its choice, log entry 8). -/
def Obligations.HaltEndsTheRun : Prop :=
  ∀ s : State, s.run = true → s.stop = none → decode (s.memRead s.pc) = .trap 0x25 →
    ∃ t, step s = .next t ∧ t = { s with pc := s.pc + 1, run := false } ∧ t.loopState = .halted ∧
      t.stopCause = some (0, none) ∧ ∀ k, Host.Core.run Sys2Proof.core k t = .next t

/-- R41: a store to the next word is what the next step fetches and runs; a store elsewhere, the instruction's own word
included, does not change what this step did. -/
def Obligations.StoreIsSeenByTheNextFetch : Prop :=
  ∀ (s : State) (sr : Reg) (off : BitVec 9), s.mem.wf = true → s.run = true → s.stop = none →
    decode (s.memRead s.pc) = .st sr off →
    ∃ t, step s = .next t ∧ t.pc = s.pc + 1 ∧
      (∀ a, t.memRead a = if a = s.pc + 1 + sext off then s.reg sr else s.memRead a) ∧
      (off = 0 → step t = exec (decode (s.reg sr)) { t with pc := s.pc + 1 + 1 })

/-- R27 and R153: the state when execution begins. -/
def Obligations.StartState : Prop :=
  (∀ r, State.reset.reg r = 0) ∧ State.reset.pc = 0x3000 ∧ State.reset.cond = 0 ∧ State.reset.run = true ∧
  (∀ a, State.reset.memRead a = 0) ∧ State.reset.loopState = .running

/-- R43 to R45, R154: the start sequence with an image: every register, PC, COND, RUN and every word of memory; a load
failure, after which execution never begins; and that the process entry takes the default base 0x3000 and offset 0 (R6,
R43). -/
def Obligations.BootPlacesTheImage : Prop :=
  (∀ (c : Config) (file : Option (List Byte)), processEntry c file = boot c 0x3000 0 file) ∧
  (∀ (c : Config) (base offset : Nat), boot c base offset none = none) ∧
  ∀ (c : Config) (base offset : Nat) (file : List Byte), ∃ s, boot c base offset (some file) = some s ∧
    (∀ r, s.reg r = 0) ∧ s.pc = c.start ∧ s.cond = 0 ∧ s.run = true ∧ s.stop = none ∧ s.config = c ∧
    (∀ (k : Nat) (hi lo : Byte), file[2 * k]? = some hi → file[2 * k + 1]? = some lo →
      base + offset + k < 65536 →
      (s.mem.read (base + offset + k)).toNat = hi.toNat * 256 + lo.toNat) ∧
    (∀ a : Nat, a < base + offset ∨ base + offset + file.length / 2 ≤ a → s.mem.read a = 0)

/-! ## Rules about every instruction -/

/-- R17: no instruction writes a general register the rule does not list for it. -/
def Obligations.OnlyListedRegistersAreWritten : Prop :=
  ∀ (i : Instr) (s t : State), exec i s = .next t → RegsSameExcept (mayDefine i) s t

/-- R22 and R88: COND is written only by the flag update, and that with the flags of the register just written. -/
def Obligations.CondIsWrittenOnlyByTheFlagUpdate : Prop :=
  ∀ (i : Instr) (s t : State), exec i s = .next t →
    (callsUpdateFlags i = false → t.cond = s.cond) ∧
    (callsUpdateFlags i = true → ∃ dr, mayDefine i = [dr] ∧ t.cond = flagsOf (t.reg dr))

/-- R19: every handler but those of the control transfers leaves PC at the incremented value. -/
def Obligations.OnlyControlTransfersWritePc : Prop :=
  ∀ s t : State, s.run = true → s.stop = none → step s = .next t →
    transfersControl (decode (s.memRead s.pc)) = false → t.pc = s.pc + 1

/-- R24: RUN is cleared only by HALT, and no step sets it. -/
def Obligations.RunIsClearedOnlyByHalt : Prop :=
  ∀ s t : State, step s = .next t →
    (s.run = true → t.run = false → decode (s.memRead s.pc) = .trap 0x25) ∧ (s.run = false → t.run = false)

/-- R119 and R125: only TRAP uses the character I/O port, and a step's output is appended to the output before it. -/
def Obligations.OnlyTrapUsesThePort : Prop :=
  ∀ (i : Instr) (s t : State), exec i s = .next t →
    (isTrap i = false → PortSame s t) ∧ ∃ events, t.output = s.output ++ events

/-- R38 and R39: after a step a word of memory is the value the step's listed write gave it, or unchanged where no write
is listed. -/
def Obligations.MemoryChangesAsTheAccessesSay : Prop :=
  ∀ s t : State, s.mem.wf = true → step s = .next t → ∀ a : Word,
    (∀ v, .write a v ∈ stepAccesses s → t.memRead a = v) ∧
    ((∀ v, .write a v ∉ stepAccesses s) → t.memRead a = s.memRead a)

/-- R38: what an instruction does depends on memory only through the words its listed reads name. With another memory
that agrees on those words it makes the same accesses and has the same outcome, in everything but memory itself. -/
def Obligations.OutcomeDependsOnlyOnListedReads : Prop :=
  ∀ (i : Instr) (s : State) (m : Memory), (∀ a, .read a ∈ accesses i s → m.read a.toNat = s.memRead a) →
    accesses i { s with mem := m } = accesses i s ∧
    match exec i s, exec i { s with mem := m } with
    | .next t, .next u => u = { t with mem := u.mem }
    | .fault f, .fault g => f = g
    | .next _, .fault _ => False
    | .next _, .refused _ => False
    | .fault _, .next _ => False
    | .fault _, .refused _ => False
    | .refused _, _ => False

/-- R136 and R137: no instruction is refused, and only two things keep a step from completing (the model's two faults,
log entry 10): an input service whose read never returns, with nothing listed to answer it, and a PUTS when no word of
memory is 0x0000. Under the default `TRAP_UNMAPPED = NOP` no stop is raised. -/
def Obligations.NoInstructionFaults : Prop :=
  ∀ (i : Instr) (s : State),
    (∃ t, exec i s = .next t ∧ (s.config.trapUnmapped = .nop → t.stop = s.stop)) ∨
    (exec i s = .fault .blockedOnInput ∧ (i = .trap 0x20 ∨ i = .trap 0x23 ∨ i = .trap 0x26) ∧
      .failure ∉ s.input ∧ .byte 0x0A ∉ s.input ∧ s.inputTail ≠ .ended) ∨
    (exec i s = .fault .endlessPuts ∧ i = .trap 0x22 ∧ ∀ a : Word, s.memRead a ≠ 0)

/-- Every step keeps the invariant: memory stays in its canonical form, COND is 0x0000 or one-hot, and stop information
stands only as R138 allows. It keeps the parameters of R7 too, in any state. -/
def Obligations.StepKeepsTheInvariant : Prop :=
  ∀ s t : State, step s = .next t → (s.Inv → t.Inv) ∧ t.config = s.config

/-- The invariant holds when execution begins. -/
def Obligations.StartStateMeetsTheInvariant : Prop := State.reset.Inv
end

