-- ==== Sys2Proof/Laws/Decode.lean ====
section
/-! SUPPORT. The laws of fields, register numbers and the opcode dispatch of the decoder. -/

namespace Sys2Proof

/-- A field's value is its bits' value (R8). -/
theorem field_toNat (lo len : Nat) (w : Word) : (field lo len w).toNat = w.toNat / 2 ^ lo % 2 ^ len := by
  simp [field, BitVec.extractLsb'_toNat, Nat.shiftRight_eq_div_pow]

/-- A field of a masked word is the field masked. -/
theorem field_and (lo len : Nat) (w m : Word) : field lo len (w &&& m) = field lo len w &&& field lo len m := by
  simp [field, BitVec.extractLsb'_and]

theorem Reg.number_lt (r : Reg) : r.number < 8 := by cases r <;> decide

@[simp] theorem Reg.number_ofField (f : BitVec 3) : (Reg.ofField f).number = f.toNat := by
  revert f; decide

@[simp] theorem Reg.ofField_number (r : Reg) : Reg.ofField (BitVec.ofNat 3 r.number) = r := by
  cases r <;> rfl

/-- A 3-bit field selects the register of its value. -/
theorem Reg.ofField_eq (f : BitVec 3) (r : Reg) (h : f.toNat = r.number) : Reg.ofField f = r := by
  have hf : f = BitVec.ofNat 3 r.number := by
    apply BitVec.eq_of_toNat_eq
    have := r.number_lt
    simp; omega
  rw [hf, Reg.ofField_number]

/-- The register number is the register. -/
theorem Reg.number_inj (a b : Reg) (h : a.number = b.number) : a = b := by
  cases a <;> cases b <;> first | rfl | (exact absurd h (by decide))

/-- The opcode is the word's value divided by 4096. -/
theorem opField_toNat (w : Word) : (opField w).toNat = w.toNat / 4096 := by
  have := w.isLt
  rw [opField, field_toNat]; omega

/-- The decoding of a word whose opcode is known. -/
theorem decode_of_opcode (w : Word) (n : Nat) (h : (opField w).toNat = n) : decode w = decodeOpcode n w := by
  rw [decode, h]

/-- A 1-bit field is 1 exactly when its value is. -/
theorem bit_eq_one (b : BitVec 1) : b = 1 ↔ b.toNat = 1 := by
  revert b; decide

/-! ## The discriminating bits of a masked word -/

/-- A mask that keeps bits 15 to 12 keeps the opcode. -/
theorem opField_of_mask (w m v : Word) (h : w &&& m = v) (hm : field 12 4 m = 15#4) : opField w = field 12 4 v := by
  subst h
  rw [field_and, hm, opField]
  generalize field 12 4 w = x
  revert x; decide

/-- A mask that keeps bit 5 keeps `imm_flag`. -/
theorem immFlag_of_mask (w m v : Word) (h : w &&& m = v) (hm : field 5 1 m = 1#1) : immFlag w = field 5 1 v := by
  subst h
  rw [field_and, hm, immFlag]
  generalize field 5 1 w = x
  revert x; decide

/-- A mask that keeps bit 11 keeps `long_flag`. -/
theorem longFlag_of_mask (w m v : Word) (h : w &&& m = v) (hm : field 11 1 m = 1#1) : longFlag w = field 11 1 v := by
  subst h
  rw [field_and, hm, longFlag]
  generalize field 11 1 w = x
  revert x; decide

/-- The word the encoder forms from a sum has the sum's value. -/
theorem ofNat16_toNat (n : Nat) (h : n < 65536) : (BitVec.ofNat 16 n).toNat = n := by simp; omega

/-- A field is what its value says. -/
theorem field_eq (lo len : Nat) (w : Word) (x : BitVec len) (h : w.toNat / 2 ^ lo % 2 ^ len = x.toNat) :
    field lo len w = x := BitVec.eq_of_toNat_eq (by rw [field_toNat, h])

end Sys2Proof
end

