-- ==== Sys2Proof/Laws/State.lean ====
section
/-! SUPPORT. One lemma per field and update of State, and the read-after-write laws of the register file. No later proof
unfolds a record update. -/

namespace Sys2Proof.Machine

/-! ## The register file -/

theorem Regs.get_set (rf : Regs) (i j : Reg) (v : Word) : (rf.set i v).get j = if j = i then v else rf.get j := by
  cases i <;> cases j <;> rfl

@[simp] theorem Regs.get_set_same (rf : Regs) (i : Reg) (v : Word) : (rf.set i v).get i = v := by
  cases i <;> rfl

/-- A register file is its eight values. -/
theorem Regs.eq_of_get (a b : Regs) (h : ∀ r, a.get r = b.get r) : a = b := by
  cases a; cases b
  have h0 := h .r0; have h1 := h .r1; have h2 := h .r2; have h3 := h .r3
  have h4 := h .r4; have h5 := h .r5; have h6 := h .r6; have h7 := h .r7
  simp only [Regs.get] at h0 h1 h2 h3 h4 h5 h6 h7
  subst h0 h1 h2 h3 h4 h5 h6 h7
  rfl

/-! ## setReg -/

@[simp] theorem State.setReg_regs (s : State) (i : Reg) (v : Word) : (s.setReg i v).regs = s.regs.set i v := rfl
@[simp] theorem State.setReg_pc (s : State) (i : Reg) (v : Word) : (s.setReg i v).pc = s.pc := rfl
@[simp] theorem State.setReg_cond (s : State) (i : Reg) (v : Word) : (s.setReg i v).cond = s.cond := rfl
@[simp] theorem State.setReg_run (s : State) (i : Reg) (v : Word) : (s.setReg i v).run = s.run := rfl
@[simp] theorem State.setReg_mem (s : State) (i : Reg) (v : Word) : (s.setReg i v).mem = s.mem := rfl
@[simp] theorem State.setReg_stop (s : State) (i : Reg) (v : Word) : (s.setReg i v).stop = s.stop := rfl
@[simp] theorem State.setReg_input (s : State) (i : Reg) (v : Word) : (s.setReg i v).input = s.input := rfl
@[simp] theorem State.setReg_inputTail (s : State) (i : Reg) (v : Word) : (s.setReg i v).inputTail = s.inputTail := rfl
@[simp] theorem State.setReg_draws (s : State) (i : Reg) (v : Word) : (s.setReg i v).draws = s.draws := rfl
@[simp] theorem State.setReg_output (s : State) (i : Reg) (v : Word) : (s.setReg i v).output = s.output := rfl
@[simp] theorem State.setReg_config (s : State) (i : Reg) (v : Word) : (s.setReg i v).config = s.config := rfl
@[simp] theorem State.setReg_memRead (s : State) (i : Reg) (v : Word) (x : Word) : (s.setReg i v).memRead x = s.memRead x := rfl

/-! ## setPc -/

@[simp] theorem State.setPc_regs (s : State) (target : Word) : (s.setPc target).regs = s.regs := rfl
@[simp] theorem State.setPc_pc (s : State) (target : Word) : (s.setPc target).pc = target := rfl
@[simp] theorem State.setPc_cond (s : State) (target : Word) : (s.setPc target).cond = s.cond := rfl
@[simp] theorem State.setPc_run (s : State) (target : Word) : (s.setPc target).run = s.run := rfl
@[simp] theorem State.setPc_mem (s : State) (target : Word) : (s.setPc target).mem = s.mem := rfl
@[simp] theorem State.setPc_stop (s : State) (target : Word) : (s.setPc target).stop = s.stop := rfl
@[simp] theorem State.setPc_input (s : State) (target : Word) : (s.setPc target).input = s.input := rfl
@[simp] theorem State.setPc_inputTail (s : State) (target : Word) : (s.setPc target).inputTail = s.inputTail := rfl
@[simp] theorem State.setPc_draws (s : State) (target : Word) : (s.setPc target).draws = s.draws := rfl
@[simp] theorem State.setPc_output (s : State) (target : Word) : (s.setPc target).output = s.output := rfl
@[simp] theorem State.setPc_config (s : State) (target : Word) : (s.setPc target).config = s.config := rfl
@[simp] theorem State.setPc_reg (s : State) (target : Word) (r : Reg) : (s.setPc target).reg r = s.reg r := rfl
@[simp] theorem State.setPc_memRead (s : State) (target : Word) (x : Word) : (s.setPc target).memRead x = s.memRead x := rfl

/-! ## incrementPc -/

@[simp] theorem State.incrementPc_regs (s : State) : s.incrementPc.regs = s.regs := rfl
@[simp] theorem State.incrementPc_pc (s : State) : s.incrementPc.pc = s.pc + 1 := rfl
@[simp] theorem State.incrementPc_cond (s : State) : s.incrementPc.cond = s.cond := rfl
@[simp] theorem State.incrementPc_run (s : State) : s.incrementPc.run = s.run := rfl
@[simp] theorem State.incrementPc_mem (s : State) : s.incrementPc.mem = s.mem := rfl
@[simp] theorem State.incrementPc_stop (s : State) : s.incrementPc.stop = s.stop := rfl
@[simp] theorem State.incrementPc_input (s : State) : s.incrementPc.input = s.input := rfl
@[simp] theorem State.incrementPc_inputTail (s : State) : s.incrementPc.inputTail = s.inputTail := rfl
@[simp] theorem State.incrementPc_draws (s : State) : s.incrementPc.draws = s.draws := rfl
@[simp] theorem State.incrementPc_output (s : State) : s.incrementPc.output = s.output := rfl
@[simp] theorem State.incrementPc_config (s : State) : s.incrementPc.config = s.config := rfl
@[simp] theorem State.incrementPc_reg (s : State) (r : Reg) : s.incrementPc.reg r = s.reg r := rfl
@[simp] theorem State.incrementPc_memRead (s : State) (x : Word) : s.incrementPc.memRead x = s.memRead x := rfl

/-! ## memWrite -/

@[simp] theorem State.memWrite_regs (s : State) (a v : Word) : (s.memWrite a v).regs = s.regs := rfl
@[simp] theorem State.memWrite_pc (s : State) (a v : Word) : (s.memWrite a v).pc = s.pc := rfl
@[simp] theorem State.memWrite_cond (s : State) (a v : Word) : (s.memWrite a v).cond = s.cond := rfl
@[simp] theorem State.memWrite_run (s : State) (a v : Word) : (s.memWrite a v).run = s.run := rfl
@[simp] theorem State.memWrite_mem (s : State) (a v : Word) : (s.memWrite a v).mem = s.mem.write a.toNat v := rfl
@[simp] theorem State.memWrite_stop (s : State) (a v : Word) : (s.memWrite a v).stop = s.stop := rfl
@[simp] theorem State.memWrite_input (s : State) (a v : Word) : (s.memWrite a v).input = s.input := rfl
@[simp] theorem State.memWrite_inputTail (s : State) (a v : Word) : (s.memWrite a v).inputTail = s.inputTail := rfl
@[simp] theorem State.memWrite_draws (s : State) (a v : Word) : (s.memWrite a v).draws = s.draws := rfl
@[simp] theorem State.memWrite_output (s : State) (a v : Word) : (s.memWrite a v).output = s.output := rfl
@[simp] theorem State.memWrite_config (s : State) (a v : Word) : (s.memWrite a v).config = s.config := rfl
@[simp] theorem State.memWrite_reg (s : State) (a v : Word) (r : Reg) : (s.memWrite a v).reg r = s.reg r := rfl

/-! ## clearRun -/

@[simp] theorem State.clearRun_regs (s : State) : s.clearRun.regs = s.regs := rfl
@[simp] theorem State.clearRun_pc (s : State) : s.clearRun.pc = s.pc := rfl
@[simp] theorem State.clearRun_cond (s : State) : s.clearRun.cond = s.cond := rfl
@[simp] theorem State.clearRun_run (s : State) : s.clearRun.run = false := rfl
@[simp] theorem State.clearRun_mem (s : State) : s.clearRun.mem = s.mem := rfl
@[simp] theorem State.clearRun_stop (s : State) : s.clearRun.stop = s.stop := rfl
@[simp] theorem State.clearRun_input (s : State) : s.clearRun.input = s.input := rfl
@[simp] theorem State.clearRun_inputTail (s : State) : s.clearRun.inputTail = s.inputTail := rfl
@[simp] theorem State.clearRun_draws (s : State) : s.clearRun.draws = s.draws := rfl
@[simp] theorem State.clearRun_output (s : State) : s.clearRun.output = s.output := rfl
@[simp] theorem State.clearRun_config (s : State) : s.clearRun.config = s.config := rfl
@[simp] theorem State.clearRun_reg (s : State) (r : Reg) : s.clearRun.reg r = s.reg r := rfl
@[simp] theorem State.clearRun_memRead (s : State) (x : Word) : s.clearRun.memRead x = s.memRead x := rfl

/-! ## raiseStop -/

@[simp] theorem State.raiseStop_regs (s : State) (info : StopInfo) : (s.raiseStop info).regs = s.regs := rfl
@[simp] theorem State.raiseStop_pc (s : State) (info : StopInfo) : (s.raiseStop info).pc = s.pc := rfl
@[simp] theorem State.raiseStop_cond (s : State) (info : StopInfo) : (s.raiseStop info).cond = s.cond := rfl
@[simp] theorem State.raiseStop_run (s : State) (info : StopInfo) : (s.raiseStop info).run = s.run := rfl
@[simp] theorem State.raiseStop_mem (s : State) (info : StopInfo) : (s.raiseStop info).mem = s.mem := rfl
@[simp] theorem State.raiseStop_stop (s : State) (info : StopInfo) : (s.raiseStop info).stop = some info := rfl
@[simp] theorem State.raiseStop_input (s : State) (info : StopInfo) : (s.raiseStop info).input = s.input := rfl
@[simp] theorem State.raiseStop_inputTail (s : State) (info : StopInfo) : (s.raiseStop info).inputTail = s.inputTail := rfl
@[simp] theorem State.raiseStop_draws (s : State) (info : StopInfo) : (s.raiseStop info).draws = s.draws := rfl
@[simp] theorem State.raiseStop_output (s : State) (info : StopInfo) : (s.raiseStop info).output = s.output := rfl
@[simp] theorem State.raiseStop_config (s : State) (info : StopInfo) : (s.raiseStop info).config = s.config := rfl
@[simp] theorem State.raiseStop_reg (s : State) (info : StopInfo) (r : Reg) : (s.raiseStop info).reg r = s.reg r := rfl
@[simp] theorem State.raiseStop_memRead (s : State) (info : StopInfo) (x : Word) : (s.raiseStop info).memRead x = s.memRead x := rfl

/-! ## updateFlags -/

@[simp] theorem State.updateFlags_regs (s : State) (i : Reg) : (s.updateFlags i).regs = s.regs := rfl
@[simp] theorem State.updateFlags_pc (s : State) (i : Reg) : (s.updateFlags i).pc = s.pc := rfl
@[simp] theorem State.updateFlags_cond (s : State) (i : Reg) : (s.updateFlags i).cond = flagsOf (s.reg i) := rfl
@[simp] theorem State.updateFlags_run (s : State) (i : Reg) : (s.updateFlags i).run = s.run := rfl
@[simp] theorem State.updateFlags_mem (s : State) (i : Reg) : (s.updateFlags i).mem = s.mem := rfl
@[simp] theorem State.updateFlags_stop (s : State) (i : Reg) : (s.updateFlags i).stop = s.stop := rfl
@[simp] theorem State.updateFlags_input (s : State) (i : Reg) : (s.updateFlags i).input = s.input := rfl
@[simp] theorem State.updateFlags_inputTail (s : State) (i : Reg) : (s.updateFlags i).inputTail = s.inputTail := rfl
@[simp] theorem State.updateFlags_draws (s : State) (i : Reg) : (s.updateFlags i).draws = s.draws := rfl
@[simp] theorem State.updateFlags_output (s : State) (i : Reg) : (s.updateFlags i).output = s.output := rfl
@[simp] theorem State.updateFlags_config (s : State) (i : Reg) : (s.updateFlags i).config = s.config := rfl
@[simp] theorem State.updateFlags_reg (s : State) (i : Reg) (r : Reg) : (s.updateFlags i).reg r = s.reg r := rfl
@[simp] theorem State.updateFlags_memRead (s : State) (i : Reg) (x : Word) : (s.updateFlags i).memRead x = s.memRead x := rfl

/-! ## define -/

@[simp] theorem State.define_regs (s : State) (dr : Reg) (v : Word) : (s.define dr v).regs = s.regs.set dr v := rfl
@[simp] theorem State.define_pc (s : State) (dr : Reg) (v : Word) : (s.define dr v).pc = s.pc := rfl
@[simp] theorem State.define_run (s : State) (dr : Reg) (v : Word) : (s.define dr v).run = s.run := rfl
@[simp] theorem State.define_mem (s : State) (dr : Reg) (v : Word) : (s.define dr v).mem = s.mem := rfl
@[simp] theorem State.define_stop (s : State) (dr : Reg) (v : Word) : (s.define dr v).stop = s.stop := rfl
@[simp] theorem State.define_input (s : State) (dr : Reg) (v : Word) : (s.define dr v).input = s.input := rfl
@[simp] theorem State.define_inputTail (s : State) (dr : Reg) (v : Word) : (s.define dr v).inputTail = s.inputTail := rfl
@[simp] theorem State.define_draws (s : State) (dr : Reg) (v : Word) : (s.define dr v).draws = s.draws := rfl
@[simp] theorem State.define_output (s : State) (dr : Reg) (v : Word) : (s.define dr v).output = s.output := rfl
@[simp] theorem State.define_config (s : State) (dr : Reg) (v : Word) : (s.define dr v).config = s.config := rfl
@[simp] theorem State.define_memRead (s : State) (dr : Reg) (v : Word) (x : Word) : (s.define dr v).memRead x = s.memRead x := rfl

/-! ## ioWriteByte -/

@[simp] theorem State.ioWriteByte_regs (s : State) (b : Byte) : (s.ioWriteByte b).regs = s.regs := rfl
@[simp] theorem State.ioWriteByte_pc (s : State) (b : Byte) : (s.ioWriteByte b).pc = s.pc := rfl
@[simp] theorem State.ioWriteByte_cond (s : State) (b : Byte) : (s.ioWriteByte b).cond = s.cond := rfl
@[simp] theorem State.ioWriteByte_run (s : State) (b : Byte) : (s.ioWriteByte b).run = s.run := rfl
@[simp] theorem State.ioWriteByte_mem (s : State) (b : Byte) : (s.ioWriteByte b).mem = s.mem := rfl
@[simp] theorem State.ioWriteByte_stop (s : State) (b : Byte) : (s.ioWriteByte b).stop = s.stop := rfl
@[simp] theorem State.ioWriteByte_input (s : State) (b : Byte) : (s.ioWriteByte b).input = s.input := rfl
@[simp] theorem State.ioWriteByte_inputTail (s : State) (b : Byte) : (s.ioWriteByte b).inputTail = s.inputTail := rfl
@[simp] theorem State.ioWriteByte_draws (s : State) (b : Byte) : (s.ioWriteByte b).draws = s.draws := rfl
@[simp] theorem State.ioWriteByte_output (s : State) (b : Byte) : (s.ioWriteByte b).output = s.output ++ [.byte b] := rfl
@[simp] theorem State.ioWriteByte_config (s : State) (b : Byte) : (s.ioWriteByte b).config = s.config := rfl
@[simp] theorem State.ioWriteByte_reg (s : State) (b : Byte) (r : Reg) : (s.ioWriteByte b).reg r = s.reg r := rfl
@[simp] theorem State.ioWriteByte_memRead (s : State) (b : Byte) (x : Word) : (s.ioWriteByte b).memRead x = s.memRead x := rfl

/-! ## ioWriteBytes -/

@[simp] theorem State.ioWriteBytes_regs (s : State) (bs : List Byte) : (s.ioWriteBytes bs).regs = s.regs := rfl
@[simp] theorem State.ioWriteBytes_pc (s : State) (bs : List Byte) : (s.ioWriteBytes bs).pc = s.pc := rfl
@[simp] theorem State.ioWriteBytes_cond (s : State) (bs : List Byte) : (s.ioWriteBytes bs).cond = s.cond := rfl
@[simp] theorem State.ioWriteBytes_run (s : State) (bs : List Byte) : (s.ioWriteBytes bs).run = s.run := rfl
@[simp] theorem State.ioWriteBytes_mem (s : State) (bs : List Byte) : (s.ioWriteBytes bs).mem = s.mem := rfl
@[simp] theorem State.ioWriteBytes_stop (s : State) (bs : List Byte) : (s.ioWriteBytes bs).stop = s.stop := rfl
@[simp] theorem State.ioWriteBytes_input (s : State) (bs : List Byte) : (s.ioWriteBytes bs).input = s.input := rfl
@[simp] theorem State.ioWriteBytes_inputTail (s : State) (bs : List Byte) : (s.ioWriteBytes bs).inputTail = s.inputTail := rfl
@[simp] theorem State.ioWriteBytes_draws (s : State) (bs : List Byte) : (s.ioWriteBytes bs).draws = s.draws := rfl
@[simp] theorem State.ioWriteBytes_output (s : State) (bs : List Byte) : (s.ioWriteBytes bs).output = s.output ++ bs.map .byte := rfl
@[simp] theorem State.ioWriteBytes_config (s : State) (bs : List Byte) : (s.ioWriteBytes bs).config = s.config := rfl
@[simp] theorem State.ioWriteBytes_reg (s : State) (bs : List Byte) (r : Reg) : (s.ioWriteBytes bs).reg r = s.reg r := rfl
@[simp] theorem State.ioWriteBytes_memRead (s : State) (bs : List Byte) (x : Word) : (s.ioWriteBytes bs).memRead x = s.memRead x := rfl

/-! ## ioFlush -/

@[simp] theorem State.ioFlush_regs (s : State) : s.ioFlush.regs = s.regs := rfl
@[simp] theorem State.ioFlush_pc (s : State) : s.ioFlush.pc = s.pc := rfl
@[simp] theorem State.ioFlush_cond (s : State) : s.ioFlush.cond = s.cond := rfl
@[simp] theorem State.ioFlush_run (s : State) : s.ioFlush.run = s.run := rfl
@[simp] theorem State.ioFlush_mem (s : State) : s.ioFlush.mem = s.mem := rfl
@[simp] theorem State.ioFlush_stop (s : State) : s.ioFlush.stop = s.stop := rfl
@[simp] theorem State.ioFlush_input (s : State) : s.ioFlush.input = s.input := rfl
@[simp] theorem State.ioFlush_inputTail (s : State) : s.ioFlush.inputTail = s.inputTail := rfl
@[simp] theorem State.ioFlush_draws (s : State) : s.ioFlush.draws = s.draws := rfl
@[simp] theorem State.ioFlush_output (s : State) : s.ioFlush.output = s.output ++ [.flush] := rfl
@[simp] theorem State.ioFlush_config (s : State) : s.ioFlush.config = s.config := rfl
@[simp] theorem State.ioFlush_reg (s : State) (r : Reg) : s.ioFlush.reg r = s.reg r := rfl
@[simp] theorem State.ioFlush_memRead (s : State) (x : Word) : s.ioFlush.memRead x = s.memRead x := rfl

/-! ## start -/

@[simp] theorem State.start_regs (s : State) : s.start.regs = s.regs := rfl
@[simp] theorem State.start_pc (s : State) : s.start.pc = s.config.start := rfl
@[simp] theorem State.start_cond (s : State) : s.start.cond = s.cond := rfl
@[simp] theorem State.start_run (s : State) : s.start.run = true := rfl
@[simp] theorem State.start_mem (s : State) : s.start.mem = s.mem := rfl
@[simp] theorem State.start_stop (s : State) : s.start.stop = s.stop := rfl
@[simp] theorem State.start_input (s : State) : s.start.input = s.input := rfl
@[simp] theorem State.start_inputTail (s : State) : s.start.inputTail = s.inputTail := rfl
@[simp] theorem State.start_draws (s : State) : s.start.draws = s.draws := rfl
@[simp] theorem State.start_output (s : State) : s.start.output = s.output := rfl
@[simp] theorem State.start_config (s : State) : s.start.config = s.config := rfl
@[simp] theorem State.start_reg (s : State) (r : Reg) : s.start.reg r = s.reg r := rfl
@[simp] theorem State.start_memRead (s : State) (x : Word) : s.start.memRead x = s.memRead x := rfl

/-! ## Registers after a write -/

theorem State.setReg_reg (s : State) (i j : Reg) (v : Word) :
    (s.setReg i v).reg j = if j = i then v else s.reg j := Regs.get_set s.regs i j v

@[simp] theorem State.setReg_reg_same (s : State) (i : Reg) (v : Word) : (s.setReg i v).reg i = v :=
  Regs.get_set_same s.regs i v

theorem State.setReg_reg_other (s : State) (i j : Reg) (v : Word) (h : j ≠ i) : (s.setReg i v).reg j = s.reg j := by
  rw [State.setReg_reg, if_neg h]

@[simp] theorem State.define_reg_same (s : State) (dr : Reg) (v : Word) : (s.define dr v).reg dr = v :=
  State.setReg_reg_same s dr v

theorem State.define_reg_other (s : State) (dr r : Reg) (v : Word) (h : r ≠ dr) : (s.define dr v).reg r = s.reg r :=
  State.setReg_reg_other s dr r v h

@[simp] theorem State.define_cond (s : State) (dr : Reg) (v : Word) : (s.define dr v).cond = flagsOf v := by
  simp [State.define]

@[simp] theorem State.noOperation_eq (s : State) : s.noOperation = s := rfl

/-! ## The values of the flag update -/

theorem flagsOf_oneHot (v : Word) : flagsOf v = flagN ∨ flagsOf v = flagZ ∨ flagsOf v = flagP := by
  unfold flagsOf
  split
  · simp
  · split <;> simp

/-- The three flag values are different. -/
theorem flags_distinct : flagN ≠ flagZ ∧ flagN ≠ flagP ∧ flagZ ≠ flagP := by decide

theorem flagsOf_eq_flagZ (v : Word) : flagsOf v = flagZ ↔ v = 0 := by
  unfold flagsOf
  split
  · simp_all
  · split <;> simp_all [flagN, flagZ, flagP]

theorem flagsOf_eq_flagN (v : Word) : flagsOf v = flagN ↔ v.msb = true := by
  unfold flagsOf
  split
  · subst_vars; simp [flagN, flagZ]
  · split <;> simp_all [flagN, flagP]

end Sys2Proof.Machine
end

