-- ==== Sys2Proof/Laws/Memory.lean ====
section
/-! SUPPORT. The laws of memory: reading after writing, and that every operation keeps the canonical form. -/

namespace Sys2Proof.Machine

/-- In a canonical memory that lists nothing below `lo`, an address below `lo` holds what an unlisted address holds. -/
theorem Memory.read_below (m : Memory) (lo a : Nat) (h : m.wfFrom lo = true) (ha : a < lo) :
    m.read a = Memory.unlisted := by
  induction m generalizing lo with
  | nil => rfl
  | cons kw m ih =>
    obtain ⟨k, w⟩ := kw
    simp only [Memory.wfFrom, Bool.and_eq_true, decide_eq_true_eq] at h
    obtain ⟨⟨⟨hlo, -⟩, -⟩, hm⟩ := h
    have hk : k ≠ a := by omega
    simp only [Memory.read, if_neg hk]
    exact ih (k + 1) hm (by omega)

/-- A canonical memory stays canonical from a lower bound. -/
theorem Memory.wfFrom_mono (m : Memory) (lo hi : Nat) (h : m.wfFrom hi = true) (hle : lo ≤ hi) :
    m.wfFrom lo = true := by
  cases m with
  | nil => rfl
  | cons kw m =>
    obtain ⟨k, w⟩ := kw
    simp only [Memory.wfFrom, Bool.and_eq_true, decide_eq_true_eq] at h ⊢
    exact ⟨⟨⟨by omega, h.1.1.2⟩, h.1.2⟩, h.2⟩

/-- The written address reads as the value written. -/
theorem Memory.read_write_same (m : Memory) (lo a : Nat) (v : Word) (h : m.wfFrom lo = true) :
    (m.write a v).read a = v := by
  induction m generalizing lo with
  | nil => unfold Memory.write; split <;> simp_all [Memory.read]
  | cons kw m ih =>
    obtain ⟨k, w⟩ := kw
    simp only [Memory.wfFrom, Bool.and_eq_true, decide_eq_true_eq] at h
    obtain ⟨-, hm⟩ := h
    unfold Memory.write
    split
    · rename_i hak
      split
      · subst_vars
        have hk : k ≠ a := by omega
        simp only [Memory.read, if_neg hk]
        exact Memory.read_below m (k + 1) a hm (by omega)
      · simp [Memory.read]
    · split
      · split
        · subst_vars; exact Memory.read_below m (k + 1) k hm (by omega)
        · simp [Memory.read]
      · rename_i hne
        have hk : k ≠ a := fun e => hne e.symm
        simp only [Memory.read, if_neg hk]
        exact ih (k + 1) hm

/-- Every other address reads as before. -/
theorem Memory.read_write_other (m : Memory) (a b : Nat) (v : Word) (hab : b ≠ a) :
    (m.write a v).read b = m.read b := by
  induction m with
  | nil =>
    unfold Memory.write
    split
    · rfl
    · simp [Memory.read, Ne.symm hab]
  | cons kw m ih =>
    obtain ⟨k, w⟩ := kw
    unfold Memory.write
    split
    · split
      · rfl
      · simp [Memory.read, Ne.symm hab]
    · split
      · subst_vars
        split <;> simp [Memory.read, Ne.symm hab]
      · simp only [Memory.read, ih]

/-- A write keeps the canonical form. -/
theorem Memory.write_wfFrom (m : Memory) (lo a : Nat) (v : Word) (h : m.wfFrom lo = true) (hlo : lo ≤ a)
    (ha : a < 65536) : (m.write a v).wfFrom lo = true := by
  induction m generalizing lo with
  | nil => unfold Memory.write; split <;> simp_all [Memory.wfFrom]
  | cons kw m ih =>
    obtain ⟨k, w⟩ := kw
    have h0 := h
    simp only [Memory.wfFrom, Bool.and_eq_true, decide_eq_true_eq] at h
    obtain ⟨⟨⟨h1, h2⟩, h3⟩, hm⟩ := h
    unfold Memory.write
    split
    · split
      · exact h0
      · simp_all [Memory.wfFrom] <;> omega
    · split
      · subst_vars
        split
        · exact Memory.wfFrom_mono m lo (k + 1) hm (by omega)
        · simp_all [Memory.wfFrom]
      · simp only [Memory.wfFrom, Bool.and_eq_true, decide_eq_true_eq]
        exact ⟨⟨⟨h1, h2⟩, h3⟩, ih (k + 1) hm (by omega)⟩

/-- A write at one of the 65536 addresses keeps the canonical form. -/
theorem Memory.write_wf (m : Memory) (a : Nat) (v : Word) (h : m.wf = true) (ha : a < 65536) :
    (m.write a v).wf = true := Memory.write_wfFrom m 0 a v h (Nat.zero_le a) ha

/-- Loading words keeps the canonical form. -/
theorem writeWords_wf (ws : List Word) (a : Nat) (m : Memory) (h : m.wf = true) : (writeWords ws a m).wf = true := by
  induction ws generalizing a m with
  | nil => exact h
  | cons w ws ih =>
    unfold writeWords
    split
    · exact ih (a + 1) _ (Memory.write_wf m a w h (by assumption))
    · exact h

/-- Reset lists nothing, which is canonical. -/
theorem reset_mem_wf : State.reset.mem.wf = true := rfl

/-! ## Through a state's memory port -/

/-- `MemWrite` keeps the canonical form. -/
theorem State.memWrite_wf (s : State) (a v : Word) (h : s.mem.wf = true) : (s.memWrite a v).mem.wf = true :=
  Memory.write_wf s.mem a.toNat v h a.isLt

/-- A `MemRead` after a `MemWrite` to the same address returns the value written (R39). -/
theorem State.memRead_memWrite_same (s : State) (a v : Word) (h : s.mem.wf = true) :
    (s.memWrite a v).memRead a = v := Memory.read_write_same s.mem 0 a.toNat v h

/-- A `MemWrite` changes no other word (R31). -/
theorem State.memRead_memWrite_other (s : State) (a b v : Word) (h : b ≠ a) :
    (s.memWrite a v).memRead b = s.memRead b :=
  Memory.read_write_other s.mem a.toNat b.toNat v (fun e => h (BitVec.eq_of_toNat_eq e))

end Sys2Proof.Machine
end

