-- ==== Sys2Proof/Laws/Exec.lean ====
section
/-! SUPPORT. What each shared operation and each instruction can do, said once: the port operations, the trap
dispatcher and, for a meaning that answers a next state, the shape of that state. -/

namespace Sys2Proof.Machine

/-! ## The input side of the port -/

/-- `s` with the record of the input side replaced. -/
def State.withInput (s : State) (input : List InputItem) (tail : InputTail) (draws : Nat) : State :=
  { s with input := input, inputTail := tail, draws := draws }

/-- A byte read touches nothing but the record of the input. -/
theorem ioReadByte_ok (s t : State) (b : Byte) (h : ioReadByte s = .ok b t) :
    ∃ i d, t = s.withInput i s.inputTail d := by
  unfold ioReadByte at h
  split at h
  · injection h with h1 h2; exact ⟨_, s.draws, h2.symm⟩
  · cases h
  · split at h
    · cases h
    · cases h
    · split at h
      · injection h with h1 h2; exact ⟨s.input, _, h2.symm⟩
      · cases h
      · cases h

theorem ioReadByte_fail (s t : State) (h : ioReadByte s = .fail t) : ∃ i d, t = s.withInput i s.inputTail d := by
  unfold ioReadByte at h
  split at h
  · cases h
  · injection h with h1; exact ⟨_, s.draws, h1.symm⟩
  · split at h
    · injection h with h1; exact ⟨s.input, s.draws, h1.symm⟩
    · cases h
    · split at h
      · cases h
      · injection h with h1; exact ⟨s.input, _, h1.symm⟩
      · cases h

/-- A byte read blocks only when nothing is listed and the input is not at its end. -/
theorem ioReadByte_blocked (s : State) (h : ioReadByte s = .blocked) : s.input = [] ∧ s.inputTail ≠ .ended := by
  unfold ioReadByte at h
  split at h
  · cases h
  · cases h
  · rename_i hi
    refine ⟨hi, fun ht => ?_⟩
    simp [ht] at h

/-- A line read touches nothing but the record of the input. -/
theorem ioReadLine_ok (s t : State) (l : List Byte) (h : ioReadLine s = .ok l t) :
    ∃ i e d, t = s.withInput i e d := by
  unfold ioReadLine at h
  split at h
  · injection h with h1 h2; exact ⟨_, s.inputTail, s.draws, h2.symm⟩
  · cases h
  · split at h
    · split at h
      · cases h
      · injection h with h1 h2; exact ⟨_, s.inputTail, s.draws, h2.symm⟩
    · cases h
    · split at h
      · cases h
      · cases h
      · split at h
        · cases h
        · injection h with h1 h2; exact ⟨_, _, _, h2.symm⟩

theorem ioReadLine_fail (s t : State) (h : ioReadLine s = .fail t) : ∃ i e d, t = s.withInput i e d := by
  unfold ioReadLine at h
  split at h
  · cases h
  · injection h with h1; exact ⟨_, s.inputTail, s.draws, h1.symm⟩
  · split at h
    · split at h
      · injection h with h1; exact ⟨_, s.inputTail, s.draws, h1.symm⟩
      · cases h
    · cases h
    · split at h
      · cases h
      · injection h with h1; exact ⟨_, s.inputTail, _, h1.symm⟩
      · split at h
        · injection h with h1; exact ⟨_, _, _, h1.symm⟩
        · cases h

/-- The scan of a listed line that has its 0x0A. -/
theorem scanLine_complete (body : List Byte) (rest : List InputItem) (h : newline ∉ body) :
    scanLine ((body ++ [newline]).map .byte ++ rest) = ⟨body ++ [newline], .complete, rest⟩ := by
  induction body with
  | nil => simp [scanLine]
  | cons b body ih =>
    simp only [List.mem_cons, not_or] at h
    have hb : b ≠ newline := fun e => h.1 e.symm
    simp only [List.cons_append, List.map_cons, scanLine, if_neg hb]
    rw [ih h.2]

/-- The scan of a line that a read failure cuts. -/
theorem scanLine_failed (body : List Byte) (rest : List InputItem) (h : newline ∉ body) :
    scanLine (body.map .byte ++ .failure :: rest) = ⟨body, .failed, rest⟩ := by
  induction body with
  | nil => simp [scanLine]
  | cons b body ih =>
    simp only [List.mem_cons, not_or] at h
    have hb : b ≠ newline := fun e => h.1 e.symm
    simp only [List.cons_append, List.map_cons, scanLine, if_neg hb]
    rw [ih h.2]

/-- The scan of listed bytes without a 0x0A. -/
theorem scanLine_cut (body : List Byte) (h : newline ∉ body) :
    scanLine (body.map .byte) = ⟨body, .cut, []⟩ := by
  induction body with
  | nil => simp [scanLine]
  | cons b body ih =>
    simp only [List.mem_cons, not_or] at h
    have hb : b ≠ newline := fun e => h.1 e.symm
    simp only [List.map_cons, scanLine, if_neg hb]
    rw [ih h.2]

/-- A scan that neither completes nor fails went over bytes only, none of them 0x0A. -/
theorem scanLine_cut_inv (l : List InputItem) (h : (scanLine l).stop = .cut) :
    .failure ∉ l ∧ .byte newline ∉ l := by
  induction l with
  | nil => simp
  | cons x l ih =>
    cases x with
    | failure => simp [scanLine] at h
    | byte b =>
      unfold scanLine at h
      split at h
      · cases h
      · rename_i hb
        have := ih h
        simp_all [eq_comm]

/-- A line read blocks only on an input that lists neither a failing read nor a 0x0A and is not at its end. -/
theorem ioReadLine_blocked (s : State) (h : ioReadLine s = .blocked) :
    (.failure ∉ s.input ∧ .byte newline ∉ s.input) ∧ s.inputTail ≠ .ended := by
  unfold ioReadLine at h
  split at h
  · cases h
  · cases h
  · rename_i hc
    refine ⟨scanLine_cut_inv _ hc, fun ht => ?_⟩
    simp only [ht] at h
    split at h <;> cases h

/-! ## The trap dispatcher -/

/-- The service of each vector of the table, and none outside it (R116, R117). -/
theorem serviceOf_cases (v : BitVec 8) :
    (v = 0x20 ∧ serviceOf v = some .getc) ∨ (v = 0x21 ∧ serviceOf v = some .out) ∨
    (v = 0x22 ∧ serviceOf v = some .puts) ∨ (v = 0x23 ∧ serviceOf v = some .inp) ∨
    (v = 0x24 ∧ serviceOf v = some .putsp) ∨ (v = 0x25 ∧ serviceOf v = some .halt) ∨
    (v = 0x26 ∧ serviceOf v = some .inu16) ∨ (v = 0x27 ∧ serviceOf v = some .outu16) ∨
    (unmappedVector v ∧ serviceOf v = none) := by
  revert v; decide

/-- An unmapped vector has no service. -/
theorem serviceOf_unmapped (v : BitVec 8) (h : unmappedVector v) : serviceOf v = none := by
  revert v; decide

theorem execTrap_unmapped (v : BitVec 8) (s : State) (h : unmappedVector v) :
    execTrap v s = match s.config.trapUnmapped with
      | .nop => .next s
      | .fault => .next (s.raiseStop (.trapVectorUnmapped v)) := by
  simp only [execTrap, serviceOf_unmapped v h, State.noOperation_eq]
  all_goals (cases s.config.trapUnmapped <;> rfl)

/-- Inside a PUTS only the output differs. -/
@[simp] theorem State.insidePuts_eq (s : State) (k : Nat) :
    s.insidePuts k = s.ioWriteBytes (stringBytes s.mem k (s.reg .r0)) := rfl

theorem execTrap_getc (s : State) : execTrap 0x20 s = serviceGetc s := rfl
theorem execTrap_out (s : State) : execTrap 0x21 s = serviceOut s := rfl
theorem execTrap_puts (s : State) : execTrap 0x22 s = servicePuts s := rfl
theorem execTrap_in (s : State) : execTrap 0x23 s = serviceIn s := rfl
theorem execTrap_putsp (s : State) : execTrap 0x24 s = servicePutsp s := rfl
theorem execTrap_halt (s : State) : execTrap 0x25 s = serviceHalt s := rfl
theorem execTrap_inu16 (s : State) : execTrap 0x26 s = serviceInu16 s := rfl
theorem execTrap_outu16 (s : State) : execTrap 0x27 s = serviceOutu16 s := rfl

/-! ## Everything an instruction can do when it answers a next state -/

/-- The shapes of the next state of an instruction `i` run in `s`. -/
inductive Effect (s : State) : Instr → State → Prop
  | defines {i : Instr} (dr : Reg) (v : Word) (hd : mayDefine i = [dr]) (hf : callsUpdateFlags i = true)
      (hc : transfersControl i = false) (ht : isTrap i = false) (ha : ∀ a w, .write a w ∉ accesses i s) :
      Effect s i (s.define dr v)
  | stores {i : Instr} (ea v : Word) (hf : callsUpdateFlags i = false) (hc : transfersControl i = false)
      (ht : isTrap i = false) (ha : ∀ a w, .write a w ∈ accesses i s ↔ a = ea ∧ w = v) : Effect s i (s.memWrite ea v)
  | jumps {i : Instr} (target : Word) (hf : callsUpdateFlags i = false) (hc : transfersControl i = true)
      (ht : isTrap i = false) (ha : accesses i s = []) : Effect s i (s.setPc target)
  | calls {i : Instr} (target : Word) (hd : mayDefine i = [.r7]) (hf : callsUpdateFlags i = false)
      (hc : transfersControl i = true) (ht : isTrap i = false) (ha : accesses i s = []) :
      Effect s i ((s.setReg .r7 s.pc).setPc target)
  | nothing {i : Instr} (hf : callsUpdateFlags i = false) (ha : ∀ a w, .write a w ∉ accesses i s) : Effect s i s
  | reads {v : BitVec 8} (input : List InputItem) (tail : InputTail) (draws : Nat) (events : List OutputEvent)
      (n : Word) (hd : mayDefine (.trap v) = [.r0]) (hv : v ≠ 0x22) :
      Effect s (.trap v) (({ s.withInput input tail draws with output := s.output ++ events }).setReg .r0 n)
  | readsNothing {v : BitVec 8} (input : List InputItem) (tail : InputTail) (draws : Nat) (hv : v ≠ 0x22) :
      Effect s (.trap v) (s.withInput input tail draws)
  | writes {v : BitVec 8} (events : List OutputEvent) : Effect s (.trap v) { s with output := s.output ++ events }
  | halts : Effect s (.trap 0x25) s.clearRun
  | stops {v : BitVec 8} (hv : unmappedVector v) (hf : s.config.trapUnmapped = .fault) :
      Effect s (.trap v) (s.raiseStop (.trapVectorUnmapped v))

/-- PUTS lists reads only. -/
theorem stringReads_no_write (m : Memory) (n : Nat) (p a w : Word) : .write a w ∉ stringReads m n p := by
  induction n generalizing p with
  | zero => simp [stringReads]
  | succ n ih =>
    unfold stringReads
    split
    · simp
    · simpa using ih (p + 1)

/-- TRAP lists reads only. -/
theorem accesses_trap_no_write (v : BitVec 8) (s : State) (a w : Word) : .write a w ∉ accesses (.trap v) s := by
  show .write a w ∉ (if v = 0x22 then stringReads s.mem 65536 (s.reg .r0) else [])
  split
  · exact stringReads_no_write _ _ _ _ _
  · simp

theorem execTrap_effect (v : BitVec 8) (s t : State) (h : execTrap v s = .next t) : Effect s (.trap v) t := by
  rcases serviceOf_cases v with ⟨rfl, -⟩ | ⟨rfl, -⟩ | ⟨rfl, -⟩ | ⟨rfl, -⟩ | ⟨rfl, -⟩ | ⟨rfl, -⟩ | ⟨rfl, -⟩ | ⟨rfl, -⟩ |
    ⟨hv, -⟩
  · rw [execTrap_getc, serviceGetc] at h
    split at h
    · rename_i b u hu
      obtain ⟨i, d, rfl⟩ := ioReadByte_ok s u b hu
      injection h with h; subst h
      simpa [State.withInput] using Effect.reads (s := s) (v := 0x20) i s.inputTail d [] (zext b) rfl (by decide)
    · rename_i u hu
      obtain ⟨i, d, rfl⟩ := ioReadByte_fail s u hu
      injection h with h; subst h
      exact .readsNothing i _ d (by decide)
    · cases h
  · rw [execTrap_out, serviceOut] at h
    injection h with h; subst h
    simpa [State.ioWriteByte, State.ioFlush] using
      Effect.writes (s := s) (v := 0x21) [.byte (lowByte (s.reg .r0)), .flush]
  · rw [execTrap_puts, servicePuts] at h
    split at h
    · rename_i k _
      injection h with h; subst h
      simpa [State.ioWriteBytes, State.ioFlush] using
        Effect.writes (s := s) (v := 0x22) ((stringBytes s.mem k (s.reg .r0)).map .byte ++ [.flush])
    · cases h
  · rw [execTrap_in, serviceIn] at h
    split at h
    · rename_i b u hu
      obtain ⟨i, d, rfl⟩ := ioReadByte_ok s u b hu
      injection h with h; subst h
      simpa [State.withInput, State.ioWriteByte, State.ioFlush] using
        Effect.reads (s := s) (v := 0x23) i s.inputTail d [.byte b, .flush] (zext b) rfl (by decide)
    · rename_i u hu
      obtain ⟨i, d, rfl⟩ := ioReadByte_fail s u hu
      injection h with h; subst h
      exact .readsNothing i _ d (by decide)
    · cases h
  · rw [execTrap_putsp, servicePutsp] at h
    injection h with h; subst h
    exact .nothing rfl (accesses_trap_no_write _ s)
  · rw [execTrap_halt, serviceHalt] at h
    injection h with h; subst h
    exact .halts
  · rw [execTrap_inu16, serviceInu16] at h
    split at h
    · rename_i l u hu
      obtain ⟨i, e, d, rfl⟩ := ioReadLine_ok s u l hu
      split at h
      · rename_i n _
        injection h with h; subst h
        simpa [State.withInput] using Effect.reads (s := s) (v := 0x26) i e d [] n rfl (by decide)
      · injection h with h; subst h
        exact .readsNothing i e d (by decide)
    · rename_i u hu
      obtain ⟨i, e, d, rfl⟩ := ioReadLine_fail s u hu
      injection h with h; subst h
      exact .readsNothing i e d (by decide)
    · cases h
  · rw [execTrap_outu16, serviceOutu16] at h
    injection h with h; subst h
    simpa [State.ioWriteBytes, State.ioWriteByte, State.ioFlush] using
      Effect.writes (s := s) (v := 0x27) ((decimalDigits (s.reg .r0)).map .byte ++ [.byte newline, .flush])
  · rw [execTrap_unmapped v s hv] at h
    split at h
    · injection h with h; subst h
      exact .nothing rfl (accesses_trap_no_write v s)
    · rename_i hf
      injection h with h; subst h
      exact .stops hv hf

/-- The inversion lemma: an instruction that answers a next state has one of the shapes of `Effect`. -/
theorem exec_effect (i : Instr) (s t : State) (h : exec i s = .next t) : Effect s i t := by
  cases i with
  | br nzp off =>
    simp only [exec, execBr] at h
    injection h with h; subst h
    split
    · exact .jumps _ rfl rfl rfl rfl
    · exact .nothing rfl (by simp [accesses])
  | addReg dr s1 s2 => injection h with h; subst h; exact .defines dr _ rfl rfl rfl rfl (by simp [accesses])
  | addImm dr s1 imm => injection h with h; subst h; exact .defines dr _ rfl rfl rfl rfl (by simp [accesses])
  | ld dr off => injection h with h; subst h; exact .defines dr _ rfl rfl rfl rfl (by simp [accesses])
  | st sr off => injection h with h; subst h; exact .stores _ _ rfl rfl rfl (by simp [accesses])
  | jsr off => injection h with h; subst h; exact .calls _ rfl rfl rfl rfl rfl
  | jsrr base =>
    simp only [exec, execJsrr] at h
    split at h
    · injection h with h; subst h; exact .calls _ rfl rfl rfl rfl rfl
    · injection h with h; subst h; exact .calls _ rfl rfl rfl rfl rfl
  | andReg dr s1 s2 => injection h with h; subst h; exact .defines dr _ rfl rfl rfl rfl (by simp [accesses])
  | andImm dr s1 imm => injection h with h; subst h; exact .defines dr _ rfl rfl rfl rfl (by simp [accesses])
  | ldr dr base off => injection h with h; subst h; exact .defines dr _ rfl rfl rfl rfl (by simp [accesses])
  | str sr base off => injection h with h; subst h; exact .stores _ _ rfl rfl rfl (by simp [accesses])
  | rti => injection h with h; subst h; exact .nothing rfl (by simp [accesses])
  | not dr s1 => injection h with h; subst h; exact .defines dr _ rfl rfl rfl rfl (by simp [accesses])
  | ldi dr off => injection h with h; subst h; exact .defines dr _ rfl rfl rfl rfl (by simp [accesses])
  | sti sr off => injection h with h; subst h; exact .stores _ _ rfl rfl rfl (by simp [accesses])
  | jmp base => injection h with h; subst h; exact .jumps _ rfl rfl rfl rfl
  | res => injection h with h; subst h; exact .nothing rfl (by simp [accesses])
  | lea dr off => injection h with h; subst h; exact .defines dr _ rfl rfl rfl rfl (by simp [accesses])
  | trap v => exact execTrap_effect v s t h

/-! ## The step -/

theorem loopState_running (s : State) : s.loopState = .running ↔ s.run = true ∧ s.stop = none := by
  cases s with
  | mk regs pc cond run mem stop input inputTail draws output config =>
    cases stop <;> cases run <;> simp [State.loopState]

/-- What a step can do when it answers a next state: nothing, if the CORE is stopped, or the handler's effect. -/
theorem step_cases (s t : State) (h : step s = .next t) :
    (s.loopState ≠ .running ∧ t = s) ∨
    (s.loopState = .running ∧ exec (decode s.fetch) s.incrementPc = .next t) := by
  unfold step at h
  split at h
  · exact .inr ⟨by assumption, h⟩
  · exact .inl ⟨by simp_all, by injection h with h; exact h.symm⟩
  · exact .inl ⟨by simp_all, by injection h with h; exact h.symm⟩

end Sys2Proof.Machine
end

