-- ==== Sys2Proof/Laws/Frames.lean ====
section
/-! SUPPORT. The frame of each shared update, in the predicates the statements use. -/

namespace Sys2Proof.Machine

theorem define_definesOnly (s : State) (dr : Reg) (v : Word) : DefinesOnly dr s (s.define dr v) :=
  ⟨fun r hr => State.define_reg_other s dr r v (by simpa using hr), rfl, fun _ => rfl, ⟨⟨rfl, rfl, rfl⟩, rfl⟩,
    rfl, rfl, rfl⟩

theorem memWrite_storesOnly (s : State) (ea v : Word) : StoresOnly ea s (s.memWrite ea v) :=
  ⟨fun _ _ => rfl, rfl, rfl, fun b hb => State.memRead_memWrite_other s ea b v hb, ⟨⟨rfl, rfl, rfl⟩, rfl⟩,
    rfl, rfl, rfl⟩

theorem setPc_transfersOnly (s : State) (target : Word) : TransfersOnly [] s (s.setPc target) :=
  ⟨fun _ _ => rfl, rfl, fun _ => rfl, ⟨⟨rfl, rfl, rfl⟩, rfl⟩, rfl, rfl, rfl⟩

theorem link_transfersOnly (s : State) (link target : Word) :
    TransfersOnly [.r7] s ((s.setReg .r7 link).setPc target) :=
  ⟨fun r hr => State.setReg_reg_other s .r7 r link (by simpa using hr), rfl, fun _ => rfl, ⟨⟨rfl, rfl, rfl⟩, rfl⟩,
    rfl, rfl, rfl⟩

theorem output_servesOnly (s : State) (out : List OutputEvent) : ServesOnly [] s { s with output := out } :=
  ⟨fun _ _ => rfl, rfl, rfl, fun _ => rfl, rfl, rfl, rfl⟩

theorem withInput_servesOnly (s : State) (i : List InputItem) (e : InputTail) (d : Nat) :
    ServesOnly [] s (s.withInput i e d) :=
  ⟨fun _ _ => rfl, rfl, rfl, fun _ => rfl, rfl, rfl, rfl⟩

/-- Reading input does not depend on memory. -/
theorem ioReadByte_mem (s : State) (m : Memory) :
    ioReadByte { s with mem := m } = match ioReadByte s with
      | .ok b t => .ok b { t with mem := m }
      | .fail t => .fail { t with mem := m }
      | .blocked => .blocked := by
  obtain ⟨regs, pc, cond, run, mem, stop, input, tail, draws, output, config⟩ := s
  simp only [ioReadByte]
  cases input with
  | cons x r => cases x <;> rfl
  | nil =>
    simp only
    cases tail <;> simp only
    cases Config.freeByteDraw draws <;> rfl

theorem ioReadLine_mem (s : State) (m : Memory) :
    ioReadLine { s with mem := m } = match ioReadLine s with
      | .ok b t => .ok b { t with mem := m }
      | .fail t => .fail { t with mem := m }
      | .blocked => .blocked := by
  simp only [ioReadLine]
  cases (scanLine s.input).stop <;> simp only
  cases s.inputTail <;> simp only
  · split <;> rfl
  · cases Config.freeLineDraw s.draws <;> simp only
    split <;> rfl

/-- The scan, its reads and the bytes it finds depend on memory only through the words it reads. -/
theorem stringScan_agree (m m' : Memory) (limit : Nat) : ∀ a : Word,
    (∀ x, .read x ∈ stringReads m limit a → m'.read x.toNat = m.read x.toNat) →
    stringLength m' limit a = stringLength m limit a ∧ stringReads m' limit a = stringReads m limit a ∧
    ∀ n, stringLength m limit a = some n → stringBytes m' n a = stringBytes m n a := by
  induction limit with
  | zero => intro a _; exact ⟨rfl, rfl, fun n h => by cases h⟩
  | succ limit ih =>
    intro a h
    have h0 : m'.read a.toNat = m.read a.toNat := h a (by simp [stringReads])
    simp only [stringLength, stringReads, h0]
    by_cases hz : m.read a.toNat = 0
    · simp only [if_pos hz, true_and]
      intro n hn; injection hn with hn; subst hn; rfl
    · simp only [if_neg hz]
      obtain ⟨hl, hr, hb⟩ := ih (a + 1) (fun x hx => h x (by
        simp only [stringReads, if_neg hz]
        exact List.mem_cons_of_mem _ hx))
      refine ⟨by rw [hl], by rw [hr], fun n hn => ?_⟩
      obtain ⟨k, hk, rfl⟩ := Option.map_eq_some_iff.1 hn
      rw [stringBytes, stringBytes, h0, hb k hk]

end Sys2Proof.Machine
end

