-- ==== Sys2Proof/Laws/PerInstr.lean ====
section
/-! SUPPORT. The family Opcode: what its opcode number says of every instruction, one lemma per constructor. -/

namespace Sys2Proof.Laws.Opcode

/-- The opcode number of an instruction (R64). -/
def number : Instr → Nat
  | .br _ _ => 0
  | .addReg _ _ _ => 1
  | .addImm _ _ _ => 1
  | .ld _ _ => 2
  | .st _ _ => 3
  | .jsr _ => 4
  | .jsrr _ => 4
  | .andReg _ _ _ => 5
  | .andImm _ _ _ => 5
  | .ldr _ _ _ => 6
  | .str _ _ _ => 7
  | .rti => 8
  | .not _ _ => 9
  | .ldi _ _ => 10
  | .sti _ _ => 11
  | .jmp _ => 12
  | .res => 13
  | .lea _ _ => 14
  | .trap _ => 15

/-- An instruction is well formed, and bits 15 to 12 of its word are its opcode number (R48, R64). -/
def Statement (i : Instr) : Prop := i.wellFormed = true ∧ (opField (encode i)).toNat = number i

/-- The opcode of a word formed from a sum. -/
theorem opField_ofNat (n : Nat) (h : n < 65536) : (opField (BitVec.ofNat 16 n)).toNat = n / 4096 := by
  rw [opField_toNat, ofNat16_toNat n h]

theorem br (nzp : BitVec 3) (off : BitVec 9) : Statement (.br nzp off) := by
  have h1 := nzp.isLt; have h2 := off.isLt
  refine ⟨rfl, ?_⟩
  rw [encode, opField_ofNat _ (by omega), number]; omega

theorem addReg (dr s1 s2 : Reg) : Statement (.addReg dr s1 s2) := by
  have h1 := dr.number_lt; have h2 := s1.number_lt; have h3 := s2.number_lt
  refine ⟨rfl, ?_⟩
  rw [encode, opField_ofNat _ (by omega), number]; omega

theorem addImm (dr s1 : Reg) (imm : BitVec 5) : Statement (.addImm dr s1 imm) := by
  have h1 := dr.number_lt; have h2 := s1.number_lt; have h3 := imm.isLt
  refine ⟨rfl, ?_⟩
  rw [encode, opField_ofNat _ (by omega), number]; omega

theorem ld (dr : Reg) (off : BitVec 9) : Statement (.ld dr off) := by
  have h1 := dr.number_lt; have h2 := off.isLt
  refine ⟨rfl, ?_⟩
  rw [encode, opField_ofNat _ (by omega), number]; omega

theorem st (sr : Reg) (off : BitVec 9) : Statement (.st sr off) := by
  have h1 := sr.number_lt; have h2 := off.isLt
  refine ⟨rfl, ?_⟩
  rw [encode, opField_ofNat _ (by omega), number]; omega

theorem jsr (off : BitVec 11) : Statement (.jsr off) := by
  have h1 := off.isLt
  refine ⟨rfl, ?_⟩
  rw [encode, opField_ofNat _ (by omega), number]; omega

theorem jsrr (base : Reg) : Statement (.jsrr base) := by
  have h1 := base.number_lt
  refine ⟨rfl, ?_⟩
  rw [encode, opField_ofNat _ (by omega), number]; omega

theorem andReg (dr s1 s2 : Reg) : Statement (.andReg dr s1 s2) := by
  have h1 := dr.number_lt; have h2 := s1.number_lt; have h3 := s2.number_lt
  refine ⟨rfl, ?_⟩
  rw [encode, opField_ofNat _ (by omega), number]; omega

theorem andImm (dr s1 : Reg) (imm : BitVec 5) : Statement (.andImm dr s1 imm) := by
  have h1 := dr.number_lt; have h2 := s1.number_lt; have h3 := imm.isLt
  refine ⟨rfl, ?_⟩
  rw [encode, opField_ofNat _ (by omega), number]; omega

theorem ldr (dr base : Reg) (off : BitVec 6) : Statement (.ldr dr base off) := by
  have h1 := dr.number_lt; have h2 := base.number_lt; have h3 := off.isLt
  refine ⟨rfl, ?_⟩
  rw [encode, opField_ofNat _ (by omega), number]; omega

theorem str (sr base : Reg) (off : BitVec 6) : Statement (.str sr base off) := by
  have h1 := sr.number_lt; have h2 := base.number_lt; have h3 := off.isLt
  refine ⟨rfl, ?_⟩
  rw [encode, opField_ofNat _ (by omega), number]; omega

theorem rti : Statement .rti := ⟨rfl, rfl⟩

theorem not (dr s1 : Reg) : Statement (.not dr s1) := by
  have h1 := dr.number_lt; have h2 := s1.number_lt
  refine ⟨rfl, ?_⟩
  rw [encode, opField_ofNat _ (by omega), number]; omega

theorem ldi (dr : Reg) (off : BitVec 9) : Statement (.ldi dr off) := by
  have h1 := dr.number_lt; have h2 := off.isLt
  refine ⟨rfl, ?_⟩
  rw [encode, opField_ofNat _ (by omega), number]; omega

theorem sti (sr : Reg) (off : BitVec 9) : Statement (.sti sr off) := by
  have h1 := sr.number_lt; have h2 := off.isLt
  refine ⟨rfl, ?_⟩
  rw [encode, opField_ofNat _ (by omega), number]; omega

theorem jmp (base : Reg) : Statement (.jmp base) := by
  have h1 := base.number_lt
  refine ⟨rfl, ?_⟩
  rw [encode, opField_ofNat _ (by omega), number]; omega

theorem res : Statement .res := ⟨rfl, rfl⟩

theorem lea (dr : Reg) (off : BitVec 9) : Statement (.lea dr off) := by
  have h1 := dr.number_lt; have h2 := off.isLt
  refine ⟨rfl, ?_⟩
  rw [encode, opField_ofNat _ (by omega), number]; omega

theorem trap (v : BitVec 8) : Statement (.trap v) := by
  have h1 := v.isLt
  refine ⟨rfl, ?_⟩
  rw [encode, opField_ofNat _ (by omega), number]; omega

end Sys2Proof.Laws.Opcode
end

