-- ==== Sys2Proof/Laws/Text.lean ====
section
/-! SUPPORT. The laws of the text conversions: trimming, the digits of a number, the steps of the parser and the scan of
a string. -/

namespace Sys2Proof.Machine

/-! ## Trimming -/

theorem trimLeft_spaces (b s : List Byte) (h : ∀ x ∈ b, isSpace x = true) : trimLeft (b ++ s) = trimLeft s := by
  induction b with
  | nil => rfl
  | cons x b ih =>
    rw [List.cons_append, trimLeft, if_pos (h x (by simp)), ih (fun y hy => h y (by simp [hy]))]

theorem trimLeft_of_head (s : List Byte) (h : ∀ x, s.head? = some x → isSpace x = false) : trimLeft s = s := by
  cases s with
  | nil => rfl
  | cons x s => rw [trimLeft, if_neg (by simp [h x rfl])]

theorem trimLeft_split (s : List Byte) : ∃ b, s = b ++ trimLeft s ∧ ∀ x ∈ b, isSpace x = true := by
  induction s with
  | nil => exact ⟨[], rfl, by simp⟩
  | cons x s ih =>
    rw [trimLeft]
    split
    · rename_i hx
      obtain ⟨b, e, h⟩ := ih
      refine ⟨x :: b, by rw [List.cons_append, ← e], fun y hy => ?_⟩
      rcases List.mem_cons.1 hy with rfl | hy
      · exact hx
      · exact h y hy
    · exact ⟨[], rfl, by simp⟩

/-- A string is its trimmed middle between two runs of whitespace. -/
theorem trim_split (s : List Byte) :
    ∃ b a, s = b ++ trim s ++ a ∧ (∀ x ∈ b, isSpace x = true) ∧ (∀ x ∈ a, isSpace x = true) := by
  obtain ⟨b, e, hb⟩ := trimLeft_split s
  obtain ⟨a, e2, ha⟩ := trimLeft_split (trimLeft s).reverse
  refine ⟨b, a.reverse, ?_, hb, by simpa using ha⟩
  have h := congrArg List.reverse e2
  simp only [List.reverse_reverse, List.reverse_append] at h
  rw [List.append_assoc, trim, ← h]
  exact e

/-- Whitespace around a string that neither begins nor ends with it is what trimming removes. -/
theorem trim_middle (b m a : List Byte) (hb : ∀ x ∈ b, isSpace x = true) (ha : ∀ x ∈ a, isSpace x = true)
    (hm : m ≠ []) (h1 : ∀ x, m.head? = some x → isSpace x = false)
    (h2 : ∀ x, m.getLast? = some x → isSpace x = false) : trim (b ++ m ++ a) = m := by
  have h : trimLeft (b ++ m ++ a) = m ++ a := by
    rw [List.append_assoc, trimLeft_spaces _ _ hb]
    apply trimLeft_of_head
    intro x hx
    apply h1
    cases m with
    | nil => exact absurd rfl hm
    | cons y m => simpa using hx
  rw [trim, h, List.reverse_append, trimLeft_spaces _ _ (by simpa using ha), trimLeft_of_head, List.reverse_reverse]
  intro x hx
  exact h2 x (by simpa using hx)

/-! ## Digits -/

theorem isDigit_iff (b : Byte) : isDigit b = true ↔ 0x30 ≤ b.toNat ∧ b.toNat ≤ 0x39 := by simp [isDigit]

theorem isSpace_of_digit (b : Byte) (h : 0x30 ≤ b.toNat ∧ b.toNat ≤ 0x39) : isSpace b = false := by
  revert b; decide

theorem digitByte_toNat (d : Nat) (h : d < 10) : (digitByte d).toNat = 0x30 + d := by
  simp [digitByte]; omega

/-- When the parser's last two steps accept a string, and with what number. -/
theorem parseDigits_eq_some (s : List Byte) (n : Word) :
    parseDigits s = some n ↔ s ≠ [] ∧ (∀ b ∈ s, isDigit b = true) ∧ decimalValue s = n.toNat := by
  have hn := n.isLt
  unfold parseDigits
  split
  · simp_all
  · rename_i h1
    split
    · rename_i h2
      rw [List.all_eq_true] at h2
      split
      · rename_i hle
        constructor
        · intro h
          injection h with h
          subst h
          exact ⟨h1, h2, by simp; omega⟩
        · rintro ⟨-, -, h⟩
          rw [h]; simp
      · constructor
        · intro h; cases h
        · rintro ⟨-, -, h⟩; omega
    · rename_i h2
      constructor
      · intro h; cases h
      · rintro ⟨-, h, -⟩
        exact absurd (List.all_eq_true.2 h) h2

/-- The value of a string with one more digit at its end. -/
theorem decimalValue_snoc (s : List Byte) (b : Byte) :
    decimalValue (s ++ [b]) = decimalValue s * 10 + digitValue b := by
  simp [decimalValue, List.foldl_append]

/-! ## Strings -/

/-- The `k`-th address after the next one. -/
theorem next_address (a : Word) (k : Nat) : a + 1 + BitVec.ofNat 16 k = a + BitVec.ofNat 16 (k + 1) := by
  apply BitVec.eq_of_toNat_eq; simp; omega

/-- The bytes of a string, word by word. -/
theorem stringBytes_eq_map (m : Memory) (k : Nat) : ∀ a : Word,
    stringBytes m k a = (List.range k).map fun j => lowByte (m.read (a + BitVec.ofNat 16 j).toNat) := by
  induction k with
  | zero => intro a; rfl
  | succ k ih =>
    intro a
    rw [stringBytes, ih, List.range_succ_eq_map, List.map_cons, List.map_map]
    congr 1
    · simp
    · apply List.map_congr_left
      intro j _
      simp only [Function.comp, next_address]

/-- The scan finds the first 0x0000 when it is among the words looked at. -/
theorem stringLength_eq_some (m : Memory) (n : Nat) : ∀ (limit : Nat) (a : Word), n < limit →
    (∀ k, k < n → m.read (a + BitVec.ofNat 16 k).toNat ≠ 0) → m.read (a + BitVec.ofNat 16 n).toNat = 0 →
    stringLength m limit a = some n := by
  induction n with
  | zero =>
    intro limit a hl _ h0
    obtain ⟨limit, rfl⟩ : ∃ l, limit = l + 1 := ⟨limit - 1, by omega⟩
    have : m.read a.toNat = 0 := by simpa using h0
    rw [stringLength, if_pos this]
  | succ n ih =>
    intro limit a hl h h0
    obtain ⟨limit, rfl⟩ : ∃ l, limit = l + 1 := ⟨limit - 1, by omega⟩
    have h1 : m.read a.toNat ≠ 0 := by simpa using h 0 (by omega)
    rw [stringLength, if_neg h1, ih limit (a + 1) (by omega)
      (fun k hk => by rw [next_address]; exact h (k + 1) (by omega)) (by rw [next_address]; exact h0)]
    rfl

/-- The scan of a memory without a 0x0000 finds no end. -/
theorem stringLength_eq_none (m : Memory) (h : ∀ a : Word, m.read a.toNat ≠ 0) (limit : Nat) :
    ∀ a : Word, stringLength m limit a = none := by
  induction limit with
  | zero => intro a; rfl
  | succ limit ih => intro a; rw [stringLength, if_neg (h a), ih]; rfl

end Sys2Proof.Machine
end

