-- ==== Sys2Proof/Tests/Slice0.lean ====
section
/-! SUPPORT. The model's own tests: refused terms of WellFormed, words written out from the formats of
spec/30_encoding.md R62, single steps of the vectors of spec/95_test_vectors.md, and one witness per statement that has
hypotheses. -/

namespace Sys2Proof.Tests

open Sys2Proof.Machine

/-! ## Helpers -/

/-- Reset with the word `w` at `a`, PC at `a`, and the changes `f` makes. -/
def placed (a w : Word) (f : State → State) : State :=
  f (({ State.reset with pc := a } : State).memWrite a w)

/-- The step completes and its next state passes `p`. -/
def stepPasses (s : State) (p : State → Bool) : Bool :=
  match step s with
  | .next t => p t
  | .fault _ => false
  | .refused _ => false

/-- The step is stuck for the reason `f`. -/
def stepSticks (s : State) (f : Fault) : Bool :=
  match step s with
  | .next _ => false
  | .fault g => decide (f = g)
  | .refused _ => false

/-- A listed input of bytes. -/
def bytes (bs : List Byte) (s : State) : State := { s with input := bs.map .byte, inputTail := .ended }

/-- The machine with `TRAP_UNMAPPED = FAULT`. -/
def faulting (s : State) : State := { s with config := { s.config with trapUnmapped := .fault } }

/-! ## WellFormed: an ill-formed term for each check, and the ends of each range (R60, R75, R76) -/

theorem test_imm5_range_refused :
    (Source.addImm .r0 .r0 16).wellFormed 0x3000 = false ∧ (Source.andImm .r0 .r0 (-17)).wellFormed 0x3000 = false := by decide
theorem test_offset6_range_refused :
    (Source.ldr .r0 .r0 32).wellFormed 0x3000 = false ∧ (Source.str .r0 .r0 (-33)).wellFormed 0x3000 = false := by decide
theorem test_offset9_reach_refused :
    (Source.ld .r0 (.label 0x3101)).wellFormed 0x3000 = false ∧ (Source.st .r0 (.label 0x2F00)).wellFormed 0x3000 = false ∧
    (Source.ldi .r0 (.label 0x3101)).wellFormed 0x3000 = false ∧ (Source.sti .r0 (.label 0x3101)).wellFormed 0x3000 = false ∧
    (Source.lea .r0 (.label 0x3101)).wellFormed 0x3000 = false ∧ (Source.br true true true (.label 0x3101)).wellFormed 0x3000 = false := by decide
theorem test_offset11_reach_refused :
    (Source.jsr (.label 0x3401)).wellFormed 0x3000 = false ∧ (Source.jsr (.label 0x2C00)).wellFormed 0x3000 = false := by decide
theorem test_decimal_offset_refused :
    (Source.ld .r0 (.offset 256)).wellFormed 0x3000 = false ∧ (Source.sti .r0 (.offset (-257))).wellFormed 0x3000 = false ∧
    (Source.jsr (.offset 1024)).wellFormed 0x3000 = false := by decide
theorem test_trap_vector_refused :
    (Source.trap 256).wellFormed 0x3000 = false := by decide
theorem test_assembler_refuses_what_does_not_fit :
    (Source.addImm .r0 .r0 16).assemble 0x3000 = none := by decide
/-- R79 and P2, P3 of 95_test_vectors.md: assembled words. -/
theorem test_assembled_words :
    (Source.addImm .r0 .r0 5).assemble 0x3000 = some 0x1025 ∧ (Source.addImm .r1 .r0 (-3)).assemble 0x3001 = some 0x123D ∧
    (Source.halt).assemble 0x3002 = some 0xF025 ∧ (Source.br false false true (.label 0x3003)).assemble 0x3005 = some 0x03FD ∧
    (Source.jsr (.label 0x3007)).assemble 0x3002 = some 0x4804 ∧ (Source.ret).assemble 0x3009 = some 0xC1C0 ∧
    (Source.nop).assemble 0x3000 = some 0x0000 ∧ (Source.ld .r1 (.label 0x3007)).assemble 0x3001 = some 0x2205 := by decide
/-- The examples of R101, R102, R105 to R109: PC-relative operands as decimal offsets. -/
theorem test_assembled_offsets :
    (Source.ld .r0 (.offset (-1))).assemble 0x3000 = some 0x21FF ∧ (Source.st .r1 (.offset 2)).assemble 0x3000 = some 0x3202 ∧
    (Source.ldi .r3 (.offset 1)).assemble 0x3000 = some 0xA601 ∧ (Source.sti .r4 (.offset 1)).assemble 0x3000 = some 0xB801 ∧
    (Source.lea .r5 (.offset (-256))).assemble 0x3000 = some 0xEB00 ∧
    (Source.br false false true (.offset (-3))).assemble 0x3005 = some 0x03FD ∧
    (Source.jsr (.offset 4)).assemble 0x3002 = some 0x4804 := by decide

/-! ## Decoding: one word per constructor, written out bit by bit from the formats of R62 (ignored bits set) -/

theorem test_decode_br : decode 0b0000_101_100000011 = .br 0b101 0b100000011 := by decide
theorem test_decode_add_reg : decode 0b0001_011_101_0_11_110 = .addReg .r3 .r5 .r6 := by decide
theorem test_decode_add_imm : decode 0b0001_011_101_1_10001 = .addImm .r3 .r5 0b10001 := by decide
theorem test_decode_ld : decode 0b0010_110_100000101 = .ld .r6 0b100000101 := by decide
theorem test_decode_st : decode 0b0011_001_011111110 = .st .r1 0b011111110 := by decide
theorem test_decode_jsr : decode 0b0100_1_10000000011 = .jsr 0b10000000011 := by decide
theorem test_decode_jsrr : decode 0b0100_0_11_100_111111 = .jsrr .r4 := by decide
theorem test_decode_and_reg : decode 0b0101_010_111_0_11_001 = .andReg .r2 .r7 .r1 := by decide
theorem test_decode_and_imm : decode 0b0101_010_111_1_01110 = .andImm .r2 .r7 0b01110 := by decide
theorem test_decode_ldr : decode 0b0110_001_110_100110 = .ldr .r1 .r6 0b100110 := by decide
theorem test_decode_str : decode 0b0111_100_011_011001 = .str .r4 .r3 0b011001 := by decide
theorem test_decode_rti : decode 0b1000_111111111111 = .rti := by decide
theorem test_decode_not : decode 0b1001_110_001_000000 = .not .r6 .r1 := by decide
theorem test_decode_ldi : decode 0b1010_111_010101010 = .ldi .r7 0b010101010 := by decide
theorem test_decode_sti : decode 0b1011_000_101010101 = .sti .r0 0b101010101 := by decide
theorem test_decode_jmp : decode 0b1100_111_011_111111 = .jmp .r3 := by decide
theorem test_decode_res : decode 0b1101_101010101010 = .res := by decide
theorem test_decode_lea : decode 0b1110_101_111111110 = .lea .r5 0b111111110 := by decide
theorem test_decode_trap : decode 0b1111_1111_00100111 = .trap 0x27 := by decide
theorem test_decodeTableWord : decodeTableWord 16 0xF025 = some (.trap 0x25) ∧ decodeTableWord 32 0 = none := by decide
theorem test_withFetchWord_runs_the_word :
    stepPasses (State.reset.withFetchWord 16 0x1025) (fun t => t.reg .r0 == 5 && t.pc == 0x3001) = true := by decide

/-! ## Single steps: the vectors of 95_test_vectors.md, by their ids -/

/-- O-1 -/
theorem test_add_reg_overflow :
    stepPasses (placed 0x3000 0x1042 (fun s => (s.setReg .r1 0x7FFF).setReg .r2 0x0001))
      (fun t => t.reg .r0 == 0x8000 && t.cond == 4 && t.pc == 0x3001) = true := by decide
/-- O-5 -/
theorem test_add_reg_source_is_destination :
    stepPasses (placed 0x3000 0x16C3 (fun s => s.setReg .r3 0x4000))
      (fun t => t.reg .r3 == 0x8000 && t.cond == 4) = true := by decide
/-- O-2 -/
theorem test_add_imm_wraps :
    stepPasses (placed 0x3000 0x1261 (fun s => s.setReg .r1 0xFFFF))
      (fun t => t.reg .r1 == 0 && t.cond == 2) = true := by decide
/-- O-3 -/
theorem test_add_imm_most_negative :
    stepPasses (placed 0x3000 0x1030 (fun s => s.setReg .r0 0x0010))
      (fun t => t.reg .r0 == 0 && t.cond == 2) = true := by decide
/-- O-10 -/
theorem test_and_reg :
    stepPasses (placed 0x3000 0x5401 (fun s => (s.setReg .r0 0x0F0F).setReg .r1 0x00FF))
      (fun t => t.reg .r2 == 0x000F && t.cond == 1) = true := by decide
/-- O-11 -/
theorem test_and_imm_sign_extends :
    stepPasses (placed 0x3000 0x5030 (fun s => s.setReg .r0 0x00FF))
      (fun t => t.reg .r0 == 0x00F0 && t.cond == 1) = true := by decide
/-- O-15 -/
theorem test_not_ignores_low_bits :
    stepPasses (placed 0x3000 0x9000 (fun s => s.setReg .r0 0x8000))
      (fun t => t.reg .r0 == 0x7FFF && t.cond == 1) = true := by decide
/-- D-2 -/
theorem test_ld_wraps :
    stepPasses (placed 0x0000 0x21FE (fun s => s.memWrite 0xFFFF 0x1234))
      (fun t => t.reg .r0 == 0x1234 && t.cond == 1) = true := by decide
/-- D-1 -/
theorem test_ld_own_word_at_the_top :
    stepPasses (placed 0xFFFF 0x21FF (fun s => s))
      (fun t => t.reg .r0 == 0x21FF && t.pc == 0x0000) = true := by decide
/-- D-6 -/
theorem test_st_keeps_cond :
    stepPasses (placed 0x3000 0x3600 (fun s => { s.setReg .r3 0xAAAA with cond := flagP }))
      (fun t => t.memRead 0x3001 == 0xAAAA && t.cond == 1) = true := by decide
/-- D-7 -/
theorem test_ldr_wraps_below_zero :
    stepPasses (placed 0x3000 0x62A0 (fun s => (s.setReg .r2 0x0010).memWrite 0xFFF0 0x7FFF))
      (fun t => t.reg .r1 == 0x7FFF && t.cond == 1) = true := by decide
/-- D-8 -/
theorem test_ldr_base_is_destination :
    stepPasses (placed 0x3000 0x6480 (fun s => (s.setReg .r2 0x4000).memWrite 0x4000 0x8000))
      (fun t => t.reg .r2 == 0x8000 && t.cond == 4) = true := by decide
/-- D-9 -/
theorem test_str_stores_the_base :
    stepPasses (placed 0x3000 0x7000 (fun s => s.setReg .r0 0x4000))
      (fun t => t.memRead 0x4000 == 0x4000) = true := by decide
/-- D-11, over a word that was 1 -/
theorem test_str_zero_keeps_memory_canonical :
    stepPasses (placed 0x3000 0x7FFF (fun s => s.memWrite 0xFFFF 0x0001))
      (fun t => t.memRead 0xFFFF == 0 && t.mem == [(0x3000, 0x7FFF)]) = true := by decide
/-- D-14 -/
theorem test_ldi_pointer_at_the_top :
    stepPasses (placed 0x3000 0xA600 (fun s => (s.memWrite 0x3001 0xFFFF).memWrite 0xFFFF 0x0042))
      (fun t => t.reg .r3 == 0x0042 && t.cond == 1) = true := by decide
/-- D-15 -/
theorem test_sti_keeps_the_pointer :
    stepPasses (placed 0x3000 0xB000 (fun s => (s.setReg .r0 0x5555).memWrite 0x3001 0xFFFF))
      (fun t => t.memRead 0xFFFF == 0x5555 && t.memRead 0x3001 == 0xFFFF && t.cond == 0) = true := by decide
/-- D-19 -/
theorem test_lea_sets_flags :
    stepPasses (placed 0x8000 0xE000 (fun s => s))
      (fun t => t.reg .r0 == 0x8001 && t.cond == 4) = true := by decide
/-- B-1 -/
theorem test_br_wraps :
    stepPasses (placed 0x0000 0x0FFE (fun s => { s with cond := flagP }))
      (fun t => t.pc == 0xFFFF && t.cond == 1) = true := by decide
/-- C-4 -/
theorem test_br_not_taken_before_a_flag :
    stepPasses (placed 0x3000 0x0E01 (fun s => s))
      (fun t => t.pc == 0x3001) = true := by decide
/-- L2-B, EQUALS_ONE -/
theorem test_br_equals_one_ignores_n :
    stepPasses (placed 0x3000 0x0E05 (fun s => { s with cond := flagN, config := { s.config with brPredicate := .equalsOne } }))
      (fun t => t.pc == 0x3001) = true := by decide
/-- J-4 -/
theorem test_jsr_wraps :
    stepPasses (placed 0xFFFE 0x4BFF (fun s => s))
      (fun t => t.reg .r7 == 0xFFFF && t.pc == 0x03FE) = true := by decide
/-- J-3 -/
theorem test_jsr_most_negative :
    stepPasses (placed 0x3000 0x4C00 (fun s => s))
      (fun t => t.reg .r7 == 0x3001 && t.pc == 0x2C01) = true := by decide
/-- J-8 -/
theorem test_jsrr_r7_link_first :
    stepPasses (placed 0x3000 0x41C0 (fun s => s.setReg .r7 0x4000))
      (fun t => t.reg .r7 == 0x3001 && t.pc == 0x3001) = true := by decide
/-- J-9 -/
theorem test_jsrr_r7_target_first :
    stepPasses (placed 0x3000 0x41C0 (fun s => { s.setReg .r7 0x4000 with config := { s.config with jsrrOrder := .targetFirst } }))
      (fun t => t.reg .r7 == 0x3001 && t.pc == 0x4000) = true := by decide
/-- J-11 -/
theorem test_jmp_ignores_bits :
    stepPasses (placed 0x3000 0xCFFF (fun s => s.setReg .r7 0x1234))
      (fun t => t.pc == 0x1234 && t.reg .r7 == 0x1234) = true := by decide
/-- Y-2 -/
theorem test_rti_is_a_nop :
    stepPasses (placed 0x3000 0x8FFF (fun s => (s.setReg .r7 0x1234).setReg .r6 5))
      (fun t => t.pc == 0x3001 && t.reg .r7 == 0x1234 && t.reg .r6 == 5) = true := by decide
/-- Y-4 -/
theorem test_res_is_a_nop :
    stepPasses (placed 0x3000 0xDFFF (fun s => s))
      (fun t => t.pc == 0x3001 && t.run) = true := by decide
/-- Y-7 -/
theorem test_trap_unmapped_nop :
    stepPasses (placed 0x3000 0xF028 (fun s => s))
      (fun t => t.pc == 0x3001 && t.stop == none && t.output == []) = true := by decide
/-- Y-7 under FAULT -/
theorem test_trap_unmapped_fault :
    stepPasses (placed 0x3000 0xF01F (fun s => faulting s))
      (fun t => t.pc == 0x3001 && t.run && t.stopCause == some (1, some 0x1F) && t.loopState == .faulted) = true := by decide
/-- T-3 -/
theorem test_getc :
    stepPasses (placed 0x3000 0xF020 (fun s => bytes [0xE9, 0x41] s))
      (fun t => t.reg .r0 == 0x00E9 && t.input == [.byte 0x41] && t.output == []) = true := by decide
/-- T-2 -/
theorem test_getc_fails :
    stepPasses (placed 0x3000 0xF020 (fun s => bytes [] (s.setReg .r0 0x1234)))
      (fun t => t.reg .r0 == 0x1234 && t.pc == 0x3001) = true := by decide
/-- T-4 -/
theorem test_getc_never_answered :
    stepSticks (placed 0x3000 0xF020 (fun s => { s with inputTail := .stalled })) .blockedOnInput = true := by decide
/-- T-5 -/
theorem test_out_low_byte :
    stepPasses (placed 0x3000 0xF021 (fun s => s.setReg .r0 0x1241))
      (fun t => t.output == [.byte 0x41, .flush] && t.reg .r0 == 0x1241) = true := by decide
/-- T-9 -/
theorem test_puts_whole_word_terminator :
    stepPasses (placed 0x3000 0xF022 (fun s => ((s.setReg .r0 0x4000).memWrite 0x4000 0x0100).memWrite 0x4001 0x0141))
      (fun t => t.output == [.byte 0x00, .byte 0x41, .flush]) = true := by decide
/-- T-10 -/
theorem test_puts_wraps :
    stepPasses (placed 0x3000 0xF022 (fun s => ((s.setReg .r0 0xFFFF).memWrite 0xFFFF 0x0058).memWrite 0x0000 0x0059))
      (fun t => t.output == [.byte 0x58, .byte 0x59, .flush]) = true := by decide
/-- T-11 -/
theorem test_in_echoes :
    stepPasses (placed 0x3000 0xF023 (fun s => bytes [0x37] s))
      (fun t => t.reg .r0 == 0x0037 && t.output == [.byte 0x37, .flush]) = true := by decide
/-- T-12 -/
theorem test_in_fails :
    stepPasses (placed 0x3000 0xF023 (fun s => { s.setReg .r0 0x0099 with input := [.failure] }))
      (fun t => t.reg .r0 == 0x0099 && t.output == [] && t.input == []) = true := by decide
/-- Y-10 -/
theorem test_putsp_is_a_nop :
    stepPasses (placed 0x3000 0xF024 (fun s => (s.setReg .r0 0x3005).memWrite 0x3005 0x6948))
      (fun t => t.output == [] && t.pc == 0x3001) = true := by decide
/-- Y-8, Y-9 -/
theorem test_halt_ignores_bits :
    stepPasses (placed 0x3000 0xFF25 (fun s => { s.setReg .r7 0x1111 with cond := flagN }))
      (fun t => t.run == false && t.pc == 0x3001 && t.reg .r7 == 0x1111 && t.cond == 4 && t.stopCause == some (0, none)) = true := by decide
/-- T-20, with a byte after the line -/
theorem test_inu16_trims :
    stepPasses (placed 0x3000 0xF026 (fun s => bytes [0x20, 0x20, 0x30, 0x30, 0x34, 0x32, 0x0D, 0x0A, 0x5A] s))
      (fun t => t.reg .r0 == 0x002A && t.input == [.byte 0x5A] && t.cond == 0) = true := by decide
/-- T-15 -/
theorem test_inu16_out_of_range :
    stepPasses (placed 0x3000 0xF026 (fun s => bytes [0x37, 0x30, 0x30, 0x30, 0x30, 0x0A] (s.setReg .r0 1)))
      (fun t => t.reg .r0 == 1 && t.input == []) = true := by decide
/-- T-26 -/
theorem test_outu16_unsigned :
    stepPasses (placed 0x3000 0xF027 (fun s => s.setReg .r0 0x8000))
      (fun t => t.output == [.byte 0x33, .byte 0x32, .byte 0x37, .byte 0x36, .byte 0x38, .byte 0x0A, .flush]) = true := by decide
/-- T-24 -/
theorem test_outu16_zero :
    stepPasses (placed 0x3000 0xF027 (fun s => s))
      (fun t => t.output == [.byte 0x30, .byte 0x0A, .flush]) = true := by decide
/-- T-14 to T-21 and T-23 -/
theorem test_parse :
    parseU16 true [0x31, 0x32, 0x33, 0x0A] = some 0x007B ∧ parseU16 true [0x36, 0x35, 0x35, 0x33, 0x35, 0x0A] = some 0xFFFF ∧
    parseU16 true [0x2B, 0x35, 0x0A] = some 5 ∧ parseU16 false [0x2B, 0x35, 0x0A] = none ∧
    parseU16 true [0x2D, 0x31, 0x0A] = none ∧ parseU16 true [0x0A] = none ∧ parseU16 true [0x31, 0x32, 0x61, 0x0A] = none ∧
    parseU16 true [0x30, 0x30, 0x30, 0x30, 0x30, 0x0A] = some 0 := by decide

/-- C-6 -/
theorem test_halted_stays :
    stepPasses { State.reset with run := false } (fun t => t.pc == 0x3000 && t.run == false) = true := by decide

/-- R43, R44: two bytes a word, the odd byte left, words beyond 0xFFFF dropped. -/
theorem test_boot :
    ((boot Config.hardware 0xFFFF 0 (some [0x10, 0x25, 0x12, 0x3D, 0x55])).map fun s => (s.mem, s.pc, s.run)) =
      some ([(0xFFFF, 0x1025)], 0x3000, true) := by decide

/-- P1: the image stands at 0x3000, where execution begins. -/
theorem test_processEntry :
    ((processEntry Config.hardware (some [0x10, 0x25, 0x12, 0x3D, 0xF0, 0x25])).map fun s => (s.mem, s.pc)) =
      some ([(0x3000, 0x1025), (0x3001, 0x123D), (0x3002, 0xF025)], 0x3000) := by decide

/-! ## Witnesses: states and operands that meet the hypotheses of the statements -/

/-- A state that is running the word `w` at 0x3000. -/
def running (w : Word) : State := placed 0x3000 w id

theorem witness_running : (running 0xF025).run = true ∧ (running 0xF025).stop = none ∧ (running 0xF025).mem.wf = true ∧
    decode ((running 0xF025).memRead (running 0xF025).pc) = .trap 0x25 := by decide

theorem witness_wellFormed : (Instr.addImm .r0 .r0 0x1F).wellFormed = true := rfl

/-- Both ends of each reach of AssembledLabelIsTheAddressFormed. -/
theorem witness_AssembledLabelIsTheAddressFormed :
    State.reset.incrementPc.pc = 0x3000 + 1 ∧
    (Source.ld .r0 (.label 0x3100)).wellFormed 0x3000 = true ∧ (Source.ld .r0 (.label 0x2F01)).wellFormed 0x3000 = true ∧
    (Source.jsr (.label 0x3400)).wellFormed 0x3000 = true ∧ (Source.jsr (.label 0x2C01)).wellFormed 0x3000 = true := by decide

/-- Both ends of each range of AssembledImmediateIsTheOperandValue. -/
theorem witness_AssembledImmediateIsTheOperandValue :
    (Source.addImm .r0 .r0 15).wellFormed 0 = true ∧ (Source.addImm .r0 .r0 (-16)).wellFormed 0 = true ∧
    (Source.ldr .r0 .r0 31).wellFormed 0 = true ∧ (Source.ldr .r0 .r0 (-32)).wellFormed 0 = true ∧
    (Source.ld .r0 (.offset 255)).wellFormed 0 = true ∧ (Source.ld .r0 (.offset (-256))).wellFormed 0 = true ∧
    (Source.jsr (.offset 1023)).wellFormed 0 = true ∧ (Source.jsr (.offset (-1024))).wellFormed 0 = true := by decide

/-- Two memories, reached by writes in two orders, that CanonicalMemoryIsItsContents is about. -/
theorem witness_CanonicalMemoryIsItsContents :
    (Memory.write (Memory.write [] 5 7) 3 9).wf = true ∧
    Memory.write (Memory.write [] 5 7) 3 9 = Memory.write (Memory.write [] 3 9) 5 7 := by decide

theorem witness_OneFlagFromTheFirstUpdateOn :
    callsUpdateFlags (.addImm .r0 .r0 0) = true ∧ callsUpdateFlags (.st .r0 0) = false ∧ State.reset.cond = 0 ∧
    (State.reset.updateFlags .r0).condOneHot := by decide

theorem witness_step_from_one_flag :
    ∃ t, step ((running 0x1021).updateFlags .r0) = .next t ∧ ((running 0x1021).updateFlags .r0).condOneHot :=
  ⟨_, rfl, by decide⟩

/-- A word for each mask hypothesis, with every ignored bit set. -/
theorem witness_masks :
    (0x125B : Word) &&& 0xF020 = 0x1000 ∧ (0x123D : Word) &&& 0xF020 = 0x1020 ∧ (0x565A : Word) &&& 0xF020 = 0x5000 ∧
    (0x5020 : Word) &&& 0xF020 = 0x5020 ∧ (0x947F : Word) &&& 0xF000 = 0x9000 ∧ (0x21FF : Word) &&& 0xF000 = 0x2000 ∧
    (0x3202 : Word) &&& 0xF000 = 0x3000 ∧ (0x647F : Word) &&& 0xF000 = 0x6000 ∧ (0x7041 : Word) &&& 0xF000 = 0x7000 ∧
    (0xA601 : Word) &&& 0xF000 = 0xA000 ∧ (0xB801 : Word) &&& 0xF000 = 0xB000 ∧ (0xEB00 : Word) &&& 0xF000 = 0xE000 ∧
    (0x03FD : Word) &&& 0xF000 = 0x0000 ∧ (0x4804 : Word) &&& 0xF800 = 0x4800 ∧ (0x46FF : Word) &&& 0xF800 = 0x4000 ∧
    (0xCFFF : Word) &&& 0xF000 = 0xC000 ∧ (0x8FFF : Word) &&& 0xF000 = 0x8000 ∧ (0xDFFF : Word) &&& 0xF000 = 0xD000 ∧
    (0xFF25 : Word) &&& 0xF000 = 0xF000 := by decide

/-- The canonical memory that the store statements assume. -/
theorem witness_stores : State.reset.mem.wf = true ∧ (running 0x3202).mem.wf = true := by decide

/-- Both parameters of BR and of JSRR. -/
theorem witness_parameters :
    State.reset.config.brPredicate = .nonzero ∧ State.reset.config.jsrrOrder = .linkFirst ∧
    ({ Config.hardware with brPredicate := .equalsOne, jsrrOrder := .targetFirst } : Config).brPredicate = .equalsOne ∧
    ({ Config.hardware with brPredicate := .equalsOne, jsrrOrder := .targetFirst } : Config).jsrrOrder = .targetFirst := by
  decide

/-- A call and a state with its R7, for both kinds of call. -/
theorem witness_RetReturnsToTheAddressAfterTheCall :
    (∃ t u : State, exec (.jsr 4) State.reset = .next t ∧ u.reg .r7 = t.reg .r7 ∧ u ≠ t) ∧
    (∃ t u : State, exec (.jsrr .r3) State.reset = .next t ∧ u.reg .r7 = t.reg .r7 ∧ u ≠ t) :=
  ⟨⟨_, { State.reset.setReg .r7 0x3000 with cond := 1 }, rfl, by decide, by decide⟩,
    ⟨_, { State.reset.setReg .r7 0x3000 with cond := 1 }, rfl, by decide, by decide⟩⟩

theorem witness_RtiAndResOnlyAdvancePc :
    decode ((running 0x8FFF).memRead (running 0x8FFF).pc) = .rti ∧ (running 0x8FFF).run = true ∧
    decode ((running 0xDFFF).memRead (running 0xDFFF).pc) = .res ∧ (running 0xDFFF).stop = none := by decide

/-- Each clause of GETC and IN. -/
theorem witness_byte_inputs :
    (bytes [0x41, 0x42] State.reset).input = .byte 0x41 :: [.byte 0x42] ∧
    ({ State.reset with input := [.failure] } : State).input = .failure :: [] ∧
    ((bytes [] State.reset).input = [] ∧ (bytes [] State.reset).inputTail = .ended) ∧
    (({ State.reset with inputTail := .stalled } : State).input = [] ∧
      ({ State.reset with inputTail := .stalled } : State).inputTail = .stalled) ∧
    State.reset.input = [] ∧ State.reset.inputTail = .unknown := by decide

/-- PUTS: the empty string, a string of one word and its end, and a word that is 0x0000. -/
theorem witness_puts_completes :
    State.reset.memRead (State.reset.reg .r0 + BitVec.ofNat 16 0) = 0 ∧
    (∀ k, k < 1 → (State.reset.memWrite 0 0x58).memRead (State.reset.reg .r0 + BitVec.ofNat 16 k) ≠ 0) ∧
    (State.reset.memWrite 0 0x58).memRead (State.reset.reg .r0 + BitVec.ofNat 16 1) = 0 := by decide

/-- `n` words from address `lo` up, each holding 1. -/
def ones : Nat → Nat → Memory
  | 0, _ => []
  | n + 1, lo => (lo, 1) :: ones n (lo + 1)

theorem ones_read (n lo a : Nat) (h : lo ≤ a) (ha : a < lo + n) : (ones n lo).read a = 1 := by
  induction n generalizing lo with
  | zero => omega
  | succ n ih =>
    rw [ones, Memory.read]
    split
    · rfl
    · exact ih (lo + 1) (by omega) (by omega)

/-- A state in which no word of memory is 0x0000. -/
theorem witness_puts_never_ends :
    ∀ a : Word, ({ State.reset with mem := ones 65536 0 } : State).memRead a ≠ 0 := by
  intro a
  rw [State.memRead, ones_read 65536 0 a.toNat (by omega) (by have := a.isLt; omega)]
  decide

/-- R137: two bytes of an endless PUTS, the address going round from 0xFFFF to 0x0000. -/
theorem test_inside_puts :
    (({ State.reset with mem := [(0, 0x59), (0xFFFF, 0x158)] }.setReg .r0 0xFFFF).insidePuts 2).output =
      [.byte 0x58, .byte 0x59] := by decide

/-- Each clause of INU16: a line that parses and one that does not, a failing read, the end of the input with and
without bytes before it, a stalled device, and one that is unknown. -/
theorem witness_Inu16ReadsALine :
    ((0x0A : Byte) ∉ ([0x34, 0x32] : List Byte)) ∧
    (bytes [0x34, 0x32, 0x0A] State.reset).input = ([0x34, 0x32] ++ [0x0A] : List Byte).map .byte ++ [] ∧
    parseU16 true ([0x34, 0x32] ++ [0x0A]) = some 42 ∧ parseU16 true ([0x2D, 0x32] ++ [0x0A]) = none ∧
    parseU16 true [0x34, 0x32] = some 42 ∧ parseU16 true [0x2D, 0x32] = none ∧
    ({ State.reset with input := [.byte 0x34, .failure] } : State).input =
      ([0x34] : List Byte).map .byte ++ .failure :: [] ∧
    (bytes [0x34, 0x32] State.reset).inputTail = .ended ∧ (bytes [] State.reset).input = ([] : List Byte).map .byte ∧
    ({ State.reset with input := [.byte 0x34], inputTail := .stalled } : State).inputTail = .stalled ∧
    State.reset.input = ([] : List Byte).map .byte ∧ State.reset.inputTail = .unknown := by decide

/-- The vectors next to the table's ends, and both values of the parameter. -/
theorem witness_unmapped :
    unmappedVector 0x00 ∧ unmappedVector 0x1F ∧ unmappedVector 0x28 ∧ unmappedVector 0xFF ∧
    ¬ unmappedVector 0x20 ∧ ¬ unmappedVector 0x27 ∧
    State.reset.config.trapUnmapped = .nop ∧ (faulting State.reset).config.trapUnmapped = .fault := by decide

theorem witness_UnmappedTrapStopsTheCore :
    (faulting (running 0xF028)).run = true ∧ (faulting (running 0xF028)).stop = none ∧
    (faulting (running 0xF028)).config.trapUnmapped = .fault ∧ unmappedVector 0x28 ∧
    decode ((faulting (running 0xF028)).memRead (faulting (running 0xF028)).pc) = .trap 0x28 := by decide

theorem witness_StepRunsTheDecodedInstruction :
    State.reset.run = true ∧ State.reset.stop = none ∧ decode (State.reset.memRead State.reset.pc) = .br 0 0 := by decide

/-- Both ways to be stopped. -/
theorem witness_StoppedCoreChangesNothing :
    ({ State.reset with run := false } : State).run = false ∧
    ({ State.reset with stop := some (.trapVectorUnmapped 0x28) } : State).stop ≠ none := by decide

theorem witness_StoreIsSeenByTheNextFetch :
    (running 0x3000).mem.wf = true ∧ decode ((running 0x3000).memRead (running 0x3000).pc) = .st .r0 0 ∧
    (running 0x3000).run = true ∧ (running 0x3000).stop = none := by decide

/-- A file of two words and the two halves of its second, and a load at the top of memory. -/
theorem witness_BootPlacesTheImage :
    ([0x10, 0x25, 0x12, 0x3D] : List Byte)[2 * 1]? = some 0x12 ∧
    ([0x10, 0x25, 0x12, 0x3D] : List Byte)[2 * 1 + 1]? = some 0x3D ∧ 0x3000 + 0 + 1 < 65536 ∧
    (0x2FFF < 0x3000 + 0 ∨ 0x3000 + 0 + 4 / 2 ≤ 0x2FFF) := by decide

/-- Instructions that complete, of each kind the rules about every instruction tell apart. -/
theorem witness_exec_completes :
    (∃ t, exec (.addImm .r0 .r0 1) State.reset = .next t) ∧ callsUpdateFlags (.addImm .r0 .r0 1) = true ∧
    (∃ t, exec (.trap 0x25) State.reset = .next t) ∧ callsUpdateFlags (.trap 0x25) = false ∧
    isTrap (.addImm .r0 .r0 1) = false :=
  ⟨⟨_, rfl⟩, rfl, ⟨_, rfl⟩, rfl, rfl⟩

theorem witness_OnlyControlTransfersWritePc :
    (∃ t, step (running 0x1021) = .next t) ∧ (running 0x1021).run = true ∧ (running 0x1021).stop = none ∧
    transfersControl (decode ((running 0x1021).memRead (running 0x1021).pc)) = false :=
  ⟨⟨_, rfl⟩, by decide, by decide, by decide⟩

/-- A step that clears RUN, and one from a halted state. -/
theorem witness_RunIsClearedOnlyByHalt :
    (∃ t, step (running 0xF025) = .next t ∧ (running 0xF025).run = true ∧ t.run = false) ∧
    ∃ t, step { State.reset with run := false } = .next t :=
  ⟨⟨_, rfl, by decide, rfl⟩, ⟨_, rfl⟩⟩

/-- A step with a listed write and an address it does not list. -/
theorem witness_MemoryChangesAsTheAccessesSay :
    (∃ t, step (running 0x3202) = .next t) ∧ (running 0x3202).mem.wf = true ∧
    .write 0x3003 0 ∈ stepAccesses (running 0x3202) ∧ (∀ v, .write 0x3004 v ∉ stepAccesses (running 0x3202)) :=
  ⟨⟨_, rfl⟩, by decide, by decide, by
    have h : stepAccesses (running 0x3202) = [.read 0x3000, .write 0x3003 0] := by decide
    intro v
    rw [h]
    simp⟩

/-- Another memory that agrees on the word LDI's two reads name, and differs elsewhere. -/
theorem witness_OutcomeDependsOnlyOnListedReads :
    (∀ a, .read a ∈ accesses (.ldi .r0 1) (running 0xA001) →
      (((running 0xA001).mem.write 0x5000 7).read a.toNat) = (running 0xA001).memRead a) ∧
    (running 0xA001).mem.write 0x5000 7 ≠ (running 0xA001).mem := by
  refine ⟨?_, by decide⟩
  have h : accesses (.ldi .r0 1) (running 0xA001) = [.read 0x3001, .read 0x0000] := by decide
  intro a ha
  rw [h] at ha
  simp only [List.mem_cons, Access.read.injEq, List.not_mem_nil, or_false] at ha
  rcases ha with rfl | rfl <;> decide

/-- A state that meets the invariant and a step from it. -/
theorem witness_StepKeepsTheInvariant :
    ((running 0x1021).updateFlags .r0).Inv ∧ ∃ t, step ((running 0x1021).updateFlags .r0) = .next t :=
  ⟨⟨by decide, by decide, trivial⟩, ⟨_, rfl⟩⟩

end Sys2Proof.Tests
end

section
/-! SUPPORT. The two extensions of R10 as sums of natural numbers, for every width up to that of a word. -/

namespace Sys2Proof.Machine

theorem toNat_zext {n : Nat} (hn : n ≤ 16) (f : BitVec n) : (zext f).toNat = f.toNat :=
  BitVec.toNat_setWidth_of_le hn

theorem toNat_sext {n : Nat} (hn : n ≤ 16) (f : BitVec n) :
    (sext f).toNat = if f.msb then f.toNat + (65536 - 2 ^ n) else f.toNat := by
  have low : (f.setWidth 16).toNat = f.toNat := BitVec.toNat_setWidth_of_le hn
  rw [sext, BitVec.toNat_signExtend, low]
  cases f.msb with
  | false => simp
  | true => simp

/-- Settles O7: the sums hold at every width up to 16, so at the five widths R10 names. -/
theorem extensionsFollowTheirSums : Obligations.ExtensionsFollowTheirSums :=
  ⟨toNat_sext (by decide), toNat_sext (by decide), toNat_sext (by decide), toNat_sext (by decide),
    toNat_zext (by decide)⟩

end Sys2Proof.Machine
end

section
/-! SUPPORT. What the shapes of `Effect` say of each part of the state, and with them the rules about the state: the
invariant, the flags, the registers, PC and RUN (spec/10_state.md R17 to R27). -/

namespace Sys2Proof.Machine

/-! ## What an instruction that answers a next state does to each part of the state -/

section
variable {s t : State} {i : Instr}

theorem Effect.config_eq (h : Effect s i t) : t.config = s.config := by
  cases h <;> rfl

theorem Effect.mem_wf (h : Effect s i t) (hs : s.mem.wf = true) : t.mem.wf = true := by
  cases h with
  | stores ea v => exact s.memWrite_wf ea v hs
  | _ => exact hs

/-- The registers an instruction does not list keep their values (R17). -/
theorem Effect.regsSameExcept (h : Effect s i t) : RegsSameExcept (mayDefine i) s t := by
  intro r hr
  cases h with
  | defines dr v hd => exact s.define_reg_other dr r v (by simpa [hd] using hr)
  | calls target hd => exact s.setReg_reg_other .r7 r s.pc (by simpa [hd] using hr)
  | reads input tail draws events n hd => exact State.setReg_reg_other _ .r0 r n (by simpa [hd] using hr)
  | _ => rfl

/-- PC on entry is the incremented PC, and only a control transfer writes it again (R19). -/
theorem Effect.pc_eq (h : Effect s i t) (hi : transfersControl i = false) : t.pc = s.pc := by
  cases h with
  | jumps target _ hc => simp [hc] at hi
  | calls target _ _ hc => simp [hc] at hi
  | _ => rfl

/-- COND does not follow a register write by itself (R22, R88). -/
theorem Effect.cond_eq (h : Effect s i t) (hi : callsUpdateFlags i = false) : t.cond = s.cond := by
  cases h with
  | defines dr v _ hf => simp [hf] at hi
  | _ => rfl

/-- The flag update classifies the DR just written (R88). -/
theorem Effect.cond_eq_flagsOf (h : Effect s i t) (hi : callsUpdateFlags i = true) :
    ∃ dr, mayDefine i = [dr] ∧ t.cond = flagsOf (t.reg dr) := by
  cases h with
  | defines dr v hd => exact ⟨dr, hd, by simp⟩
  | stores _ _ hf => simp [hf] at hi
  | jumps _ hf => simp [hf] at hi
  | calls _ _ hf => simp [hf] at hi
  | nothing hf => simp [hf] at hi
  | _ => cases hi

/-- RUN and the stop information change by HALT and by an unmapped TRAP alone (R24, R138). -/
theorem Effect.run_stop_cases (h : Effect s i t) :
    (t.run = s.run ∧ t.stop = s.stop) ∨
    (i = .trap 0x25 ∧ t.run = false ∧ t.stop = s.stop) ∨
    (∃ v, i = .trap v ∧ unmappedVector v ∧ s.config.trapUnmapped = .fault ∧
      t.run = s.run ∧ t.stop = some (.trapVectorUnmapped v)) := by
  cases h with
  | halts => exact .inr (.inl ⟨rfl, rfl, rfl⟩)
  | stops hv hf => exact .inr (.inr ⟨_, rfl, hv, hf, rfl, rfl⟩)
  | _ => exact .inl ⟨rfl, rfl⟩

theorem Effect.condOneHot_of_callsUpdateFlags (h : Effect s i t) (hi : callsUpdateFlags i = true) : t.condOneHot := by
  obtain ⟨dr, -, hc⟩ := h.cond_eq_flagsOf hi
  rw [State.condOneHot, hc]
  exact flagsOf_oneHot _

theorem Effect.cond_eq_or_oneHot (h : Effect s i t) : t.cond = s.cond ∨ t.condOneHot := by
  cases hi : callsUpdateFlags i with
  | false => exact .inl (h.cond_eq hi)
  | true => exact .inr (h.condOneHot_of_callsUpdateFlags hi)

theorem Effect.keeps_condOneHot (h : Effect s i t) (hs : s.condOneHot) : t.condOneHot := by
  rcases h.cond_eq_or_oneHot with he | ho
  · rw [State.condOneHot, he]; exact hs
  · exact ho

theorem Effect.keeps_condLegal (h : Effect s i t) (hs : s.condLegal) : t.condLegal := by
  rcases h.cond_eq_or_oneHot with he | ho
  · rw [State.condLegal, he]; exact hs
  · exact .inr ho

theorem stopLegal_of_stop_eq_none (h : s.stop = none) : s.stopLegal := by simp [State.stopLegal, h]

/-- Only a CORE with no stop information runs an instruction (R138), so the instruction that records some leaves RUN
at 1, and HALT finds none. -/
theorem Effect.stopLegal_of_running (h : Effect s i t) (hr : s.run = true) (hs : s.stop = none) : t.stopLegal := by
  rcases h.run_stop_cases with ⟨-, hn⟩ | ⟨-, -, hn⟩ | ⟨v, -, hv, hf, hrun, hstop⟩
  · exact stopLegal_of_stop_eq_none (hn.trans hs)
  · exact stopLegal_of_stop_eq_none (hn.trans hs)
  · simp only [State.stopLegal, hstop]
    exact ⟨h.config_eq ▸ hf, hrun.trans hr, hv⟩

theorem Effect.keeps_inv (h : Effect s i t) (hr : s.run = true) (hs : s.stop = none) (hi : s.Inv) : t.Inv where
  mem := h.mem_wf hi.mem
  cond := h.keeps_condLegal hi.cond
  stop := h.stopLegal_of_running hr hs

/-! ## The step -/

theorem State.incrementPc_inv (hi : s.Inv) : s.incrementPc.Inv := ⟨hi.mem, hi.cond, hi.stop⟩

theorem step_effect_of_running (h : step s = .next t) (hr : s.run = true) (hs : s.stop = none) :
    Effect s.incrementPc (decode (s.memRead s.pc)) t := by
  rcases step_cases s t h with ⟨hl, -⟩ | ⟨-, hx⟩
  · exact absurd ((loopState_running s).2 ⟨hr, hs⟩) hl
  · exact exec_effect _ _ _ hx

/-- `step_cases` with the handler's effect in place of its run: a stopped CORE stays as it is (R93), a running one has
the effect of the word at PC. -/
theorem step_effect (h : step s = .next t) :
    t = s ∨ (s.run = true ∧ s.stop = none ∧ Effect s.incrementPc (decode (s.memRead s.pc)) t) := by
  rcases step_cases s t h with ⟨-, rfl⟩ | ⟨hl, -⟩
  · exact .inl rfl
  · obtain ⟨hr, hs⟩ := (loopState_running s).1 hl
    exact .inr ⟨hr, hs, step_effect_of_running h hr hs⟩

end

/-! ## The state when execution begins -/

theorem reset_reg (r : Reg) : State.reset.reg r = 0 := by
  cases r <;> rfl

/-- Settles O49: every field as creation and the start sequence leave it. -/
theorem startState : Obligations.StartState :=
  ⟨reset_reg, rfl, rfl, rfl, fun _ => rfl, rfl⟩

/-- Settles O60: nothing is listed in memory, no flag is set and no stop information stands. -/
theorem startStateMeetsTheInvariant : Obligations.StartStateMeetsTheInvariant :=
  ⟨reset_mem_wf, .inl rfl, stopLegal_of_stop_eq_none rfl⟩

/-! ## The rules -/

/-- Settles O59: a stopped CORE stays as it is, and the effect of a running one keeps each part of the invariant. -/
theorem stepKeepsTheInvariant : Obligations.StepKeepsTheInvariant := by
  intro s t h
  rcases step_effect h with rfl | ⟨hr, hs, he⟩
  · exact ⟨id, rfl⟩
  · exact ⟨fun hi => he.keeps_inv hr hs (State.incrementPc_inv hi), he.config_eq⟩

/-- Settles O12: an instruction either leaves COND as it is or classifies the DR it wrote. -/
theorem oneFlagFromTheFirstUpdateOn : Obligations.OneFlagFromTheFirstUpdateOn := by
  refine ⟨rfl, fun i s t hi h0 h => ?_, fun i s t hi h => ?_, fun s t h ho => ?_⟩
  · exact ((exec_effect i s t h).cond_eq hi).trans h0
  · exact (exec_effect i s t h).condOneHot_of_callsUpdateFlags hi
  · rcases step_effect h with rfl | ⟨-, -, he⟩
    · exact ho
    · exact he.keeps_condOneHot ho

/-- Settles O51: every shape of `Effect` writes the listed registers alone. -/
theorem onlyListedRegistersAreWritten : Obligations.OnlyListedRegistersAreWritten :=
  fun i s t h => (exec_effect i s t h).regsSameExcept

/-- Settles O53: the handler leaves PC at the value the step's increment gave it. -/
theorem onlyControlTransfersWritePc : Obligations.OnlyControlTransfersWritePc :=
  fun _ _ hr hs h hc => (step_effect_of_running h hr hs).pc_eq hc

/-- Settles O54: of the instructions that leave a next state only HALT changes RUN, and a CORE with RUN = 0 runs
none. -/
theorem runIsClearedOnlyByHalt : Obligations.RunIsClearedOnlyByHalt := by
  intro s t h
  rcases step_effect h with rfl | ⟨hr, -, he⟩
  · exact ⟨fun h1 h0 => by simp [h1] at h0, id⟩
  · refine ⟨fun _ h0 => ?_, fun h0 => by simp [hr] at h0⟩
    rcases he.run_stop_cases with ⟨hk, -⟩ | ⟨hi, -, -⟩ | ⟨v, -, -, -, hk, -⟩
    · simp [hk, hr] at h0
    · exact hi
    · simp [hk, hr] at h0

end Sys2Proof.Machine
end

section
/-! SUPPORT. The rules about memory: canonical memories, the image loader, the step of a store, and the two ways the
table of accesses bounds what an instruction does with memory (spec/20_memory.md R28 to R45). -/

namespace Sys2Proof.Machine

/-! ## Canonical memories -/

theorem Memory.wfFrom_cons {lo k : Nat} {w : Word} {m : Memory} :
    Memory.wfFrom lo ((k, w) :: m) = true ↔
      lo ≤ k ∧ k < 65536 ∧ w ≠ Memory.unlisted ∧ m.wfFrom (k + 1) = true := by
  simp [Memory.wfFrom, and_assoc]

/-- A canonical memory lists its own addresses only: a word other than the unlisted one is not below its bound. -/
theorem Memory.le_of_read_ne {m : Memory} {lo a : Nat} (h : m.wfFrom lo = true) (ha : m.read a ≠ Memory.unlisted) :
    lo ≤ a :=
  Nat.le_of_not_lt fun hlt => ha (m.read_below lo a h hlt)

theorem Memory.read_cons_same (k : Nat) (w : Word) (m : Memory) : Memory.read ((k, w) :: m) k = w := if_pos rfl

theorem Memory.read_cons_other {k a : Nat} (w : Word) (m : Memory) (h : k ≠ a) :
    Memory.read ((k, w) :: m) a = m.read a := if_neg h

/-- The first listed address is the first that holds another word than the unlisted one, so it is the same for both
lists; below the tails both hold the unlisted word, so the tails agree too. -/
theorem Memory.eq_of_read_eq {lo lo' : Nat} {m m' : Memory} (h : m.wfFrom lo = true) (h' : m'.wfFrom lo' = true)
    (hr : ∀ a, a < 65536 → m.read a = m'.read a) : m = m' := by
  induction m generalizing lo lo' m' with
  | nil =>
    cases m' with
    | nil => rfl
    | cons kw' m' =>
      obtain ⟨k', w'⟩ := kw'
      obtain ⟨-, hk', hw', -⟩ := Memory.wfFrom_cons.1 h'
      exact absurd ((hr k' hk').trans (Memory.read_cons_same k' w' m')).symm hw'
  | cons kw m ih =>
    obtain ⟨k, w⟩ := kw
    obtain ⟨-, hk, hw, hm⟩ := Memory.wfFrom_cons.1 h
    have hrk := hr k hk
    rw [Memory.read_cons_same] at hrk
    cases m' with
    | nil => exact absurd hrk hw
    | cons kw' m' =>
      obtain ⟨k', w'⟩ := kw'
      obtain ⟨-, hk', hw', hm'⟩ := Memory.wfFrom_cons.1 h'
      have hrk' := hr k' hk'
      rw [Memory.read_cons_same] at hrk'
      have hle : k' ≤ k := Memory.le_of_read_ne (Memory.wfFrom_cons.2 ⟨Nat.le_refl _, hk', hw', hm'⟩) (hrk ▸ hw)
      have hle' : k ≤ k' := Memory.le_of_read_ne (Memory.wfFrom_cons.2 ⟨Nat.le_refl _, hk, hw, hm⟩) (hrk'.symm ▸ hw')
      obtain rfl : k = k' := Nat.le_antisymm hle' hle
      rw [Memory.read_cons_same] at hrk
      have htail : m = m' := ih hm hm' fun a ha => by
        by_cases hak : k = a
        · rw [Memory.read_below m _ a hm (by omega), Memory.read_below m' _ a hm' (by omega)]
        · have hra := hr a ha
          rwa [Memory.read_cons_other w m hak, Memory.read_cons_other w' m' hak] at hra
      rw [hrk, htail]

/-- Settles O10: the 65536 words are the words of every address below 65536. -/
theorem canonicalMemoryIsItsContents : Obligations.CanonicalMemoryIsItsContents := by
  intro m m' h h' hr
  refine Memory.eq_of_read_eq h h' fun a ha => ?_
  have hra := hr (BitVec.ofNat 16 a)
  rwa [ofNat16_toNat a ha] at hra

/-! ## The image loader -/

theorem length_imageWords (file : List Byte) : (imageWords file).length = file.length / 2 := by
  induction file using imageWords.induct with
  | case1 hi lo rest ih => simp only [imageWords, List.length_cons, ih]; omega
  | case2 b => simp [imageWords]
  | case3 => rfl

/-- Word `k` of an image is its bytes `2k` and `2k+1`, the high byte first (R44). -/
theorem getElem?_imageWords {file : List Byte} {k : Nat} {hi lo : Byte} (hhi : file[2 * k]? = some hi)
    (hlo : file[2 * k + 1]? = some lo) :
    (imageWords file)[k]? = some (BitVec.ofNat 16 (hi.toNat * 256 + lo.toNat)) := by
  induction file using imageWords.induct generalizing k with
  | case1 hi' lo' rest ih =>
    cases k with
    | zero => simp_all [imageWords]
    | succ k => exact ih hhi hlo
  | case2 b => simp at hlo
  | case3 => simp at hlo

/-- A load leaves the words below it and above it as they are (R43). -/
theorem read_writeWords_outside (ws : List Word) (a b : Nat) (m : Memory) (h : b < a ∨ a + ws.length ≤ b) :
    (writeWords ws a m).read b = m.read b := by
  induction ws generalizing a m with
  | nil => rfl
  | cons w ws ih =>
    rw [List.length_cons] at h
    unfold writeWords
    split
    · rw [ih (a + 1) _ (by omega), m.read_write_other a b w (by omega)]
    · rfl

/-- Word `k` of a load goes to the `k`-th address from its first, if that is an address (R43). -/
theorem read_writeWords_inside {ws : List Word} {a k : Nat} {m : Memory} {w : Word} (hm : m.wf = true)
    (hw : ws[k]? = some w) (hk : a + k < 65536) : (writeWords ws a m).read (a + k) = w := by
  induction ws generalizing a k m with
  | nil => simp at hw
  | cons w' ws ih =>
    rw [writeWords, if_pos (by omega)]
    cases k with
    | zero =>
      obtain rfl : w' = w := by simpa using hw
      rw [read_writeWords_outside ws (a + 1) (a + 0) _ (by omega)]
      exact m.read_write_same 0 a w' hm
    | succ k =>
      have hnext : a + (k + 1) = a + 1 + k := by omega
      rw [hnext]
      exact ih (m.write_wf a w' hm (by omega)) hw (by omega)

theorem created_reg (c : Config) (r : Reg) : (State.created c).reg r = 0 := by
  cases r <;> rfl

theorem created_mem_wf (c : Config) : (State.created c).mem.wf = true := rfl

/-- Two bytes make a number below 65536, so their word has that value. -/
theorem toNat_imageWord (hi lo : Byte) :
    (BitVec.ofNat 16 (hi.toNat * 256 + lo.toNat)).toNat = hi.toNat * 256 + lo.toNat := by
  have hhi := hi.isLt
  have hlo := lo.isLt
  exact ofNat16_toNat _ (by omega)

/-- Settles O50: creation leaves every register and word 0, the load writes the image's words and no other, and the
start writes PC and RUN alone. -/
theorem bootPlacesTheImage : Obligations.BootPlacesTheImage := by
  refine ⟨fun _ _ => rfl, fun _ _ _ => rfl, fun c base offset file =>
    ⟨((State.created c).loadImage base offset file).start, rfl, created_reg c, rfl, rfl, rfl, rfl, rfl, ?_, ?_⟩⟩
  · intro k hi lo hhi hlo hk
    have hread := read_writeWords_inside (created_mem_wf c) (getElem?_imageWords hhi hlo) hk
    exact (congrArg BitVec.toNat hread).trans (toNat_imageWord hi lo)
  · intro a ha
    rw [← length_imageWords] at ha
    exact read_writeWords_outside (imageWords file) (base + offset) a [] ha

/-! ## The step of a store -/

/-- The step of a running CORE runs the word at PC (R92). -/
theorem step_of_running (s : State) (hr : s.run = true) (hs : s.stop = none) :
    step s = exec (decode (s.memRead s.pc)) s.incrementPc := by
  rw [step, (loopState_running s).2 ⟨hr, hs⟩]
  rfl

theorem State.memRead_memWrite {s : State} (hs : s.mem.wf = true) (a v b : Word) :
    (s.memWrite a v).memRead b = if b = a then v else s.memRead b := by
  split
  · subst_vars; exact s.memRead_memWrite_same _ v hs
  · exact s.memRead_memWrite_other a b v (by assumption)

/-- Settles O48: the step stores SR beside the incremented PC; with offset 0 that is the word the next step fetches. -/
theorem storeIsSeenByTheNextFetch : Obligations.StoreIsSeenByTheNextFetch := by
  intro s sr off hwf hr hs hd
  have hread := State.memRead_memWrite (s := s.incrementPc) hwf (s.pc + 1 + sext off) (s.reg sr)
  refine ⟨s.incrementPc.memWrite (s.pc + 1 + sext off) (s.reg sr), ?_, rfl, hread, fun hoff => ?_⟩
  · rw [step_of_running s hr hs, hd]
    rfl
  · have hea : s.pc + 1 = s.pc + 1 + sext off := by simp [hoff, sext]
    rw [step_of_running (s.incrementPc.memWrite _ _) hr hs, hread, State.memWrite_pc, State.incrementPc_pc, if_pos hea]
    rfl

/-! ## The writes of a step -/

section
variable {s t : State} {i : Instr}

/-- An instruction either stores the one word its one listed write names, or writes no memory and lists no write. -/
theorem Effect.stores_or_mem_eq (h : Effect s i t) :
    (∃ ea v, t = s.memWrite ea v ∧ ∀ a w, .write a w ∈ accesses i s ↔ a = ea ∧ w = v) ∨
    (t.mem = s.mem ∧ ∀ a w, .write a w ∉ accesses i s) := by
  cases h with
  | stores ea v _ _ _ ha => exact .inl ⟨ea, v, rfl, ha⟩
  | defines dr v _ _ _ _ ha => exact .inr ⟨rfl, ha⟩
  | jumps target _ _ _ ha => exact .inr ⟨rfl, by simp [ha]⟩
  | calls target _ _ _ _ ha => exact .inr ⟨rfl, by simp [ha]⟩
  | nothing _ ha => exact .inr ⟨rfl, ha⟩
  | _ => exact .inr ⟨rfl, accesses_trap_no_write _ s⟩

theorem Effect.memRead_of_accesses (h : Effect s i t) (hs : s.mem.wf = true) (a : Word) :
    (∀ v, .write a v ∈ accesses i s → t.memRead a = v) ∧
    ((∀ v, .write a v ∉ accesses i s) → t.memRead a = s.memRead a) := by
  rcases h.stores_or_mem_eq with ⟨ea, v, rfl, ha⟩ | ⟨hm, ha⟩
  · refine ⟨fun w hw => ?_, fun hn => ?_⟩
    · obtain ⟨rfl, rfl⟩ := (ha a w).1 hw
      exact s.memRead_memWrite_same a w hs
    · exact s.memRead_memWrite_other ea a v fun he => hn v ((ha a v).2 ⟨he, rfl⟩)
  · exact ⟨fun w hw => absurd hw (ha a w), fun _ => congrArg (Memory.read · a.toNat) hm⟩

end

theorem stepAccesses_of_stopped {s : State} (h : s.loopState ≠ .running) : stepAccesses s = [] := by
  unfold stepAccesses
  split
  · exact absurd (by assumption) h
  · rfl
  · rfl

/-- The fetch is a read, so the writes of a step are those of its handler. -/
theorem write_mem_stepAccesses {s : State} (h : s.loopState = .running) (a v : Word) :
    .write a v ∈ stepAccesses s ↔ .write a v ∈ accesses (decode s.fetch) s.incrementPc := by
  simp [stepAccesses, h]

/-- Settles O56: a stopped CORE lists no access and changes nothing; the handler of a running one stores what it
lists. -/
theorem memoryChangesAsTheAccessesSay : Obligations.MemoryChangesAsTheAccessesSay := by
  intro s t hwf h a
  rcases step_cases s t h with ⟨hl, rfl⟩ | ⟨hl, hx⟩
  · simp [stepAccesses_of_stopped hl]
  · simp only [write_mem_stepAccesses hl]
    exact (exec_effect _ _ t hx).memRead_of_accesses hwf a

/-! ## The reads of an instruction -/

/-- `s` with another memory. -/
def State.withMem (s : State) (m : Memory) : State := { s with mem := m }

@[simp] theorem State.withMem_cond (s : State) (m : Memory) : (s.withMem m).cond = s.cond := rfl
@[simp] theorem State.withMem_config (s : State) (m : Memory) : (s.withMem m).config = s.config := rfl
@[simp] theorem State.withMem_mem (s : State) (m : Memory) : (s.withMem m).mem = m := rfl
@[simp] theorem State.withMem_reg (s : State) (m : Memory) (r : Reg) : (s.withMem m).reg r = s.reg r := rfl

/-- The same outcome but for memory: two next states that differ in memory alone, or the same fault. -/
inductive AgreeButForMemory : Result → Result → Prop
  | next (t : State) (m : Memory) : AgreeButForMemory (.next t) (.next (t.withMem m))
  | fault (f : Fault) : AgreeButForMemory (.fault f) (.fault f)

section
variable (s : State) (m : Memory)

theorem agree_define (dr : Reg) {v v' : Word} (hv : v' = v) :
    AgreeButForMemory (.next (s.define dr v)) (.next ((s.withMem m).define dr v')) := by
  subst hv
  exact .next _ m

theorem agree_memWrite (v : Word) {ea ea' : Word} (he : ea' = ea) :
    AgreeButForMemory (.next (s.memWrite ea v)) (.next ((s.withMem m).memWrite ea' v)) := by
  subst he
  exact .next _ (m.write ea'.toNat v)

theorem execBr_agree (nzp : BitVec 3) (off : BitVec 9) :
    AgreeButForMemory (execBr nzp off s) (execBr nzp off (s.withMem m)) := by
  rw [execBr, execBr, State.withMem_config, State.withMem_cond]
  by_cases hb : branchTaken s.config.brPredicate s.cond nzp = true
  · rw [if_pos hb, if_pos hb]
    exact .next _ m
  · rw [if_neg hb, if_neg hb]
    exact .next s m

theorem execJsrr_agree (base : Reg) : AgreeButForMemory (execJsrr base s) (execJsrr base (s.withMem m)) := by
  rw [execJsrr, execJsrr, State.withMem_config]
  cases s.config.jsrrOrder with
  | linkFirst => exact .next _ m
  | targetFirst => exact .next _ m

theorem serviceGetc_agree : AgreeButForMemory (serviceGetc s) (serviceGetc (s.withMem m)) := by
  rw [serviceGetc, serviceGetc, State.withMem, ioReadByte_mem s m]
  cases ioReadByte s with
  | ok b t => exact .next _ m
  | fail t => exact .next t m
  | blocked => exact .fault _

theorem serviceIn_agree : AgreeButForMemory (serviceIn s) (serviceIn (s.withMem m)) := by
  rw [serviceIn, serviceIn, State.withMem, ioReadByte_mem s m]
  cases ioReadByte s with
  | ok b t => exact .next _ m
  | fail t => exact .next t m
  | blocked => exact .fault _

theorem serviceInu16_agree : AgreeButForMemory (serviceInu16 s) (serviceInu16 (s.withMem m)) := by
  rw [serviceInu16, serviceInu16, State.withMem, ioReadLine_mem s m]
  cases ioReadLine s with
  | ok line t =>
    simp only
    cases parseU16 s.config.inu16AllowPlus line with
    | some n => exact .next _ m
    | none => exact .next t m
  | fail t => exact .next t m
  | blocked => exact .fault _

/-- The effective address of LDI and STI is the word their first read names (R105, R106). -/
theorem indirect9_withMem {off : BitVec 9} (h : m.read (pcPlus9 s off).toNat = s.memRead (pcPlus9 s off)) :
    indirect9 (s.withMem m) off = indirect9 s off := h

/-- PUTS reads its string and nothing else (R128). -/
theorem accesses_puts : accesses (.trap 0x22) s = stringReads s.mem 65536 (s.reg .r0) := by
  rw [accesses, if_pos rfl]

theorem accesses_trap_of_ne {v : BitVec 8} (hv : v ≠ 0x22) : accesses (.trap v) s = [] := if_neg hv

variable {s m}

theorem servicePuts_agree (h : ∀ a, .read a ∈ accesses (.trap 0x22) s → m.read a.toNat = s.memRead a) :
    AgreeButForMemory (servicePuts s) (servicePuts (s.withMem m)) := by
  rw [accesses_puts] at h
  obtain ⟨hl, -, hb⟩ := stringScan_agree s.mem m 65536 (s.reg .r0) h
  rw [servicePuts, servicePuts, State.withMem_mem, State.withMem_reg, hl]
  cases hk : stringLength s.mem 65536 (s.reg .r0) with
  | none => exact .fault _
  | some k =>
    simp only [State.insidePuts_eq, State.withMem_mem, State.withMem_reg, hb k hk]
    exact .next _ m

theorem execTrap_agree (v : BitVec 8) (h : ∀ a, .read a ∈ accesses (.trap v) s → m.read a.toNat = s.memRead a) :
    AgreeButForMemory (execTrap v s) (execTrap v (s.withMem m)) := by
  rcases serviceOf_cases v with ⟨rfl, -⟩ | ⟨rfl, -⟩ | ⟨rfl, -⟩ | ⟨rfl, -⟩ | ⟨rfl, -⟩ | ⟨rfl, -⟩ | ⟨rfl, -⟩ | ⟨rfl, -⟩ |
    ⟨hv, -⟩
  · exact serviceGetc_agree s m
  · exact .next (s.ioWriteByte (lowByte (s.reg .r0))).ioFlush m
  · exact servicePuts_agree h
  · exact serviceIn_agree s m
  · exact .next s m
  · exact .next s.clearRun m
  · exact serviceInu16_agree s m
  · exact .next ((s.ioWriteBytes (decimalDigits (s.reg .r0))).ioWriteByte newline).ioFlush m
  · rw [execTrap_unmapped v _ hv, execTrap_unmapped v _ hv, State.withMem_config]
    cases s.config.trapUnmapped with
    | nop => exact .next s m
    | fault => exact .next (s.raiseStop _) m

/-- Each instruction computes its outcome from the words it lists; LDI and STI find their address in the first. -/
theorem exec_agree (i : Instr) (h : ∀ a, .read a ∈ accesses i s → m.read a.toNat = s.memRead a) :
    AgreeButForMemory (exec i s) (exec i (s.withMem m)) := by
  cases i with
  | br nzp off => exact execBr_agree s m nzp off
  | addReg dr sr1 sr2 => exact agree_define s m dr rfl
  | addImm dr sr1 imm => exact agree_define s m dr rfl
  | ld dr off => exact agree_define s m dr (h (pcPlus9 s off) (by simp [accesses]))
  | st sr off => exact agree_memWrite s m _ rfl
  | jsr off => exact .next _ m
  | jsrr base => exact execJsrr_agree s m base
  | andReg dr sr1 sr2 => exact agree_define s m dr rfl
  | andImm dr sr1 imm => exact agree_define s m dr rfl
  | ldr dr base off => exact agree_define s m dr (h (basePlus6 s base off) (by simp [accesses]))
  | str sr base off => exact agree_memWrite s m _ rfl
  | rti => exact .next s m
  | not dr sr1 => exact agree_define s m dr rfl
  | ldi dr off =>
    refine agree_define s m dr ?_
    rw [indirect9_withMem s m (h (pcPlus9 s off) (by simp [accesses]))]
    exact h (indirect9 s off) (by simp [accesses])
  | sti sr off =>
    exact agree_memWrite s m (s.reg sr) (indirect9_withMem s m (h (pcPlus9 s off) (by simp [accesses])))
  | jmp base => exact .next _ m
  | res => exact .next s m
  | lea dr off => exact agree_define s m dr rfl
  | trap v => exact execTrap_agree v h

/-- The addresses an instruction lists depend on memory only through the words it lists before them. -/
theorem accesses_withMem (i : Instr) (h : ∀ a, .read a ∈ accesses i s → m.read a.toNat = s.memRead a) :
    accesses i (s.withMem m) = accesses i s := by
  cases i with
  | ldi dr off =>
    have hea := indirect9_withMem s m (h (pcPlus9 s off) (by simp [accesses]))
    simp only [accesses, hea]
    rfl
  | sti sr off =>
    have hea := indirect9_withMem s m (h (pcPlus9 s off) (by simp [accesses]))
    simp only [accesses, hea]
    rfl
  | trap v =>
    by_cases hv : v = 0x22
    · subst hv
      rw [accesses_puts] at h ⊢
      rw [accesses_puts]
      exact (stringScan_agree s.mem m 65536 (s.reg .r0) h).2.1
    · rw [accesses_trap_of_ne _ hv, accesses_trap_of_ne _ hv]
  | _ => rfl

end

/-- Settles O57: the accesses and the outcome of `exec_agree`, of which none is a refusal. -/
theorem outcomeDependsOnlyOnListedReads : Obligations.OutcomeDependsOnlyOnListedReads := by
  intro i s m h
  refine ⟨accesses_withMem i h, ?_⟩
  have hx := exec_agree i h
  rw [State.withMem] at hx
  generalize exec i s = r, exec i { s with mem := m } = r' at hx
  cases hx with
  | next t m' => rfl
  | fault f => rfl

end Sys2Proof.Machine
end

section
/-! SUPPORT. Words by their values: what each field reads of a word's value, and what clearing a range of bits leaves of
it (spec/30_encoding.md R48 to R63). -/

namespace Sys2Proof

/-! ## The fields (R48 to R59) -/

section
variable (w : Word)

theorem ofField_field_number (lo : Nat) : (Reg.ofField (field lo 3 w)).number = w.toNat / 2 ^ lo % 2 ^ 3 := by
  rw [Reg.number_ofField, field_toNat]

theorem lowField_toNat (len : Nat) : (field 0 len w).toNat = w.toNat % 2 ^ len := by
  rw [field_toNat, Nat.pow_zero, Nat.div_one]

@[simp] theorem drField_number : (drField w).number = w.toNat / 512 % 8 := ofField_field_number w 9

@[simp] theorem nzpField_toNat : (nzpField w).toNat = w.toNat / 512 % 8 := field_toNat 9 3 w

@[simp] theorem longFlag_toNat : (longFlag w).toNat = w.toNat / 2048 % 2 := field_toNat 11 1 w

@[simp] theorem sr1Field_number : (sr1Field w).number = w.toNat / 64 % 8 := ofField_field_number w 6

@[simp] theorem sr2Field_number : (sr2Field w).number = w.toNat % 8 := by
  rw [sr2Field, Reg.number_ofField]
  exact lowField_toNat w 3

@[simp] theorem immFlag_toNat : (immFlag w).toNat = w.toNat / 32 % 2 := field_toNat 5 1 w

@[simp] theorem imm5Field_toNat : (imm5Field w).toNat = w.toNat % 32 := lowField_toNat w 5

@[simp] theorem offset6Field_toNat : (offset6Field w).toNat = w.toNat % 64 := lowField_toNat w 6

@[simp] theorem offset9Field_toNat : (offset9Field w).toNat = w.toNat % 512 := lowField_toNat w 9

@[simp] theorem offset11Field_toNat : (offset11Field w).toNat = w.toNat % 2048 := lowField_toNat w 11

@[simp] theorem trapvect8Field_toNat : (trapvect8Field w).toNat = w.toNat % 256 := lowField_toNat w 8

end

theorem Reg.eq_iff_number (a b : Reg) : a = b ↔ a.number = b.number := ⟨congrArg Reg.number, Reg.number_inj a b⟩

/-- Settles O2: the values of the twelve fields. -/
theorem fieldsAreTheirBits : Obligations.FieldsAreTheirBits := fun w =>
  ⟨opField_toNat w, drField_number w, nzpField_toNat w, longFlag_toNat w, sr1Field_number w, sr2Field_number w,
    immFlag_toNat w, imm5Field_toNat w, offset6Field_toNat w, offset9Field_toNat w, offset11Field_toNat w,
    trapvect8Field_toNat w⟩

/-- Settles O1: the decoder evaluated on the twenty words. -/
theorem specExampleWordsDecode : Obligations.SpecExampleWordsDecode := by
  unfold Obligations.SpecExampleWordsDecode
  decide

/-! ## Cleared bits -/

/-- The bits of a number from bit `b` up, together with those below bit `a`. -/
theorem testBit_high_add_low (n : Nat) {a b : Nat} (hab : a ≤ b) (i : Nat) :
    (2 ^ b * (n / 2 ^ b) + n % 2 ^ a).testBit i = (n.testBit i && (decide (i < a) || !decide (i < b))) := by
  have hlow : n % 2 ^ a < 2 ^ b :=
    Nat.lt_of_lt_of_le (Nat.mod_lt n (Nat.two_pow_pos a)) (Nat.pow_le_pow_right (by decide) hab)
  rw [Nat.testBit_two_pow_mul_add _ hlow]
  by_cases hi : i < b
  · simp [hi, Nat.testBit_mod_two_pow, Bool.and_comm]
  · have hsum : i - b + b = i := by omega
    simp [hi, Nat.testBit_div_two_pow, hsum]

/-- The word with 1 in the `len` bits from bit `lo` up, and 0 elsewhere. -/
def bitRange (lo len : Nat) : Word := (BitVec.allOnes len).setWidth 16 <<< lo

/-- Clearing a range of bits leaves what stands above it and what stands below it. -/
theorem toNat_and_not_bitRange (w : Word) (lo len : Nat) :
    (w &&& ~~~bitRange lo len).toNat = 2 ^ (lo + len) * (w.toNat / 2 ^ (lo + len)) + w.toNat % 2 ^ lo := by
  refine Nat.eq_of_testBit_eq fun i => ?_
  rw [testBit_high_add_low _ (Nat.le_add_right lo len), BitVec.testBit_toNat, BitVec.testBit_toNat, BitVec.getLsbD_and]
  cases hw : w.getLsbD i with
  | false => rfl
  | true =>
    have hi : i < 16 := BitVec.lt_of_getLsbD hw
    by_cases hl : i < lo
    · simp [bitRange, hi, hl]
    · have hlen : i - lo < len ↔ i < lo + len := by omega
      simp [bitRange, hi, hl, hlen]

/-- Two ranges are cleared one after the other. -/
theorem and_not_or (w a b : Word) : w &&& ~~~(a ||| b) = w &&& ~~~a &&& ~~~b := by
  rw [BitVec.not_or, BitVec.and_assoc]

section
variable (w : Word)

theorem and_not_zero : w &&& ~~~0 = w := BitVec.and_allOnes

/-- The bits ADD and AND ignore in register mode. -/
theorem toNat_and_not_0018 : (w &&& ~~~0x0018).toNat = 32 * (w.toNat / 32) + w.toNat % 8 :=
  toNat_and_not_bitRange w 3 2

/-- The bits NOT ignores. -/
theorem toNat_and_not_003F : (w &&& ~~~0x003F).toNat = 64 * (w.toNat / 64) := by
  have h := toNat_and_not_bitRange w 0 6
  rwa [Nat.pow_zero, Nat.mod_one] at h

/-- The bits RTI and RES ignore. -/
theorem toNat_and_not_0FFF : (w &&& ~~~0x0FFF).toNat = 4096 * (w.toNat / 4096) := by
  have h := toNat_and_not_bitRange w 0 12
  rwa [Nat.pow_zero, Nat.mod_one] at h

/-- The bits TRAP ignores. -/
theorem toNat_and_not_0F00 : (w &&& ~~~0x0F00).toNat = 4096 * (w.toNat / 4096) + w.toNat % 256 :=
  toNat_and_not_bitRange w 8 4

/-- The bits JSRR ignores. -/
theorem toNat_and_not_063F : (w &&& ~~~0x063F).toNat = 2048 * (w.toNat / 2048) + w.toNat / 64 % 8 * 64 := by
  have hm : (0x063F : Word) = bitRange 9 2 ||| 0x003F := by decide
  rw [hm, and_not_or, toNat_and_not_003F, toNat_and_not_bitRange]
  omega

/-- The bits JMP ignores. -/
theorem toNat_and_not_0E3F : (w &&& ~~~0x0E3F).toNat = 4096 * (w.toNat / 4096) + w.toNat / 64 % 8 * 64 := by
  have hm : (0x0E3F : Word) = bitRange 9 3 ||| 0x003F := by decide
  rw [hm, and_not_or, toNat_and_not_003F, toNat_and_not_bitRange]
  omega

end

end Sys2Proof
end

section
/-! SUPPORT. Decoding and encoding as one relation between words and instructions: the word of each format, and from it
that a word decodes to an instruction exactly when it is the instruction's word but for the ignored bits
(spec/30_encoding.md R62 to R66, R71, R79). -/

namespace Sys2Proof

/-! ## The words of each format (R62) -/

/-- A word is the word of a sum exactly when its value is the sum. -/
theorem eq_ofNat16_iff {w : Word} {n : Nat} (h : n < 65536) : w = BitVec.ofNat 16 n ↔ w.toNat = n := by
  rw [← BitVec.toNat_inj, ofNat16_toNat n h]

section
variable {w : Word} {dr sr1 sr2 : Reg} {nzp : BitVec 3} {imm5 : BitVec 5} {off6 : BitVec 6} {v : BitVec 8}
  {off9 : BitVec 9} {off11 : BitVec 11}

theorem eq_sum_br :
    w &&& ~~~0 = BitVec.ofNat 16 (nzp.toNat * 512 + off9.toNat) ↔
      (opField w).toNat = 0 ∧ nzpField w = nzp ∧ offset9Field w = off9 := by
  have h1 := nzp.isLt; have h2 := off9.isLt
  rw [eq_ofNat16_iff (by omega), and_not_zero]
  simp only [← BitVec.toNat_inj, opField_toNat, nzpField_toNat, offset9Field_toNat]
  omega

theorem eq_sum_pc9 (n : Nat) (hn : n < 16) :
    w &&& ~~~0 = BitVec.ofNat 16 (n * 4096 + dr.number * 512 + off9.toNat) ↔
      (opField w).toNat = n ∧ drField w = dr ∧ offset9Field w = off9 := by
  have h1 := dr.number_lt; have h2 := off9.isLt
  rw [eq_ofNat16_iff (by omega), and_not_zero]
  simp only [← BitVec.toNat_inj, Reg.eq_iff_number, opField_toNat, drField_number, offset9Field_toNat]
  omega

theorem eq_sum_base6 (n : Nat) (hn : n < 16) :
    w &&& ~~~0 = BitVec.ofNat 16 (n * 4096 + dr.number * 512 + sr1.number * 64 + off6.toNat) ↔
      (opField w).toNat = n ∧ drField w = dr ∧ sr1Field w = sr1 ∧ offset6Field w = off6 := by
  have h1 := dr.number_lt; have h2 := sr1.number_lt; have h3 := off6.isLt
  rw [eq_ofNat16_iff (by omega), and_not_zero]
  simp only [← BitVec.toNat_inj, Reg.eq_iff_number, opField_toNat, drField_number, sr1Field_number, offset6Field_toNat]
  omega

theorem eq_sum_oprReg (n : Nat) (hn : n < 16) :
    w &&& ~~~0x0018 = BitVec.ofNat 16 (n * 4096 + dr.number * 512 + sr1.number * 64 + sr2.number) ↔
      (opField w).toNat = n ∧ ¬ immFlag w = 1 ∧ drField w = dr ∧ sr1Field w = sr1 ∧ sr2Field w = sr2 := by
  have h1 := dr.number_lt; have h2 := sr1.number_lt; have h3 := sr2.number_lt
  rw [eq_ofNat16_iff (by omega), toNat_and_not_0018]
  simp only [bit_eq_one, Reg.eq_iff_number, opField_toNat, immFlag_toNat, drField_number, sr1Field_number,
    sr2Field_number]
  omega

theorem eq_sum_oprImm (n : Nat) (hn : n < 16) :
    w &&& ~~~0 = BitVec.ofNat 16 (n * 4096 + dr.number * 512 + sr1.number * 64 + 32 + imm5.toNat) ↔
      (opField w).toNat = n ∧ immFlag w = 1 ∧ drField w = dr ∧ sr1Field w = sr1 ∧ imm5Field w = imm5 := by
  have h1 := dr.number_lt; have h2 := sr1.number_lt; have h3 := imm5.isLt
  rw [eq_ofNat16_iff (by omega), and_not_zero, bit_eq_one]
  simp only [← BitVec.toNat_inj, Reg.eq_iff_number, opField_toNat, immFlag_toNat, drField_number, sr1Field_number,
    imm5Field_toNat]
  omega

theorem eq_sum_jsr :
    w &&& ~~~0 = BitVec.ofNat 16 (0x4800 + off11.toNat) ↔
      (opField w).toNat = 4 ∧ longFlag w = 1 ∧ offset11Field w = off11 := by
  have h1 := off11.isLt
  rw [eq_ofNat16_iff (by omega), and_not_zero, bit_eq_one]
  simp only [← BitVec.toNat_inj, opField_toNat, longFlag_toNat, offset11Field_toNat]
  omega

theorem eq_sum_jsrr :
    w &&& ~~~0x063F = BitVec.ofNat 16 (0x4000 + sr1.number * 64) ↔
      (opField w).toNat = 4 ∧ ¬ longFlag w = 1 ∧ sr1Field w = sr1 := by
  have h1 := sr1.number_lt
  rw [eq_ofNat16_iff (by omega), toNat_and_not_063F]
  simp only [bit_eq_one, Reg.eq_iff_number, opField_toNat, longFlag_toNat, sr1Field_number]
  omega

theorem eq_sum_not :
    w &&& ~~~0x003F = BitVec.ofNat 16 (0x9000 + dr.number * 512 + sr1.number * 64) ↔
      (opField w).toNat = 9 ∧ drField w = dr ∧ sr1Field w = sr1 := by
  have h1 := dr.number_lt; have h2 := sr1.number_lt
  rw [eq_ofNat16_iff (by omega), toNat_and_not_003F]
  simp only [Reg.eq_iff_number, opField_toNat, drField_number, sr1Field_number]
  omega

theorem eq_sum_jmp :
    w &&& ~~~0x0E3F = BitVec.ofNat 16 (0xC000 + sr1.number * 64) ↔ (opField w).toNat = 12 ∧ sr1Field w = sr1 := by
  have h1 := sr1.number_lt
  rw [eq_ofNat16_iff (by omega), toNat_and_not_0E3F]
  simp only [Reg.eq_iff_number, opField_toNat, sr1Field_number]
  omega

theorem eq_sum_none (n : Nat) (hn : n < 16) :
    w &&& ~~~0x0FFF = BitVec.ofNat 16 (n * 4096) ↔ (opField w).toNat = n := by
  rw [eq_ofNat16_iff (by omega), toNat_and_not_0FFF, opField_toNat]
  omega

theorem eq_sum_trap :
    w &&& ~~~0x0F00 = BitVec.ofNat 16 (0xF000 + v.toNat) ↔ (opField w).toNat = 15 ∧ trapvect8Field w = v := by
  have h1 := v.isLt
  rw [eq_ofNat16_iff (by omega), toNat_and_not_0F00]
  simp only [← BitVec.toNat_inj, opField_toNat, trapvect8Field_toNat]
  omega

end

/-! ## The instruction of a word -/

/-- The word has the opcode of the instruction, the flag that selects it and its operands as fields (R62, R64, R65). -/
def HasFields (w : Word) : Instr → Prop
  | .br nzp off => (opField w).toNat = 0 ∧ nzpField w = nzp ∧ offset9Field w = off
  | .addReg dr sr1 sr2 =>
    (opField w).toNat = 1 ∧ ¬ immFlag w = 1 ∧ drField w = dr ∧ sr1Field w = sr1 ∧ sr2Field w = sr2
  | .addImm dr sr1 imm => (opField w).toNat = 1 ∧ immFlag w = 1 ∧ drField w = dr ∧ sr1Field w = sr1 ∧ imm5Field w = imm
  | .ld dr off => (opField w).toNat = 2 ∧ drField w = dr ∧ offset9Field w = off
  | .st sr off => (opField w).toNat = 3 ∧ drField w = sr ∧ offset9Field w = off
  | .jsr off => (opField w).toNat = 4 ∧ longFlag w = 1 ∧ offset11Field w = off
  | .jsrr base => (opField w).toNat = 4 ∧ ¬ longFlag w = 1 ∧ sr1Field w = base
  | .andReg dr sr1 sr2 =>
    (opField w).toNat = 5 ∧ ¬ immFlag w = 1 ∧ drField w = dr ∧ sr1Field w = sr1 ∧ sr2Field w = sr2
  | .andImm dr sr1 imm => (opField w).toNat = 5 ∧ immFlag w = 1 ∧ drField w = dr ∧ sr1Field w = sr1 ∧ imm5Field w = imm
  | .ldr dr base off => (opField w).toNat = 6 ∧ drField w = dr ∧ sr1Field w = base ∧ offset6Field w = off
  | .str sr base off => (opField w).toNat = 7 ∧ drField w = sr ∧ sr1Field w = base ∧ offset6Field w = off
  | .rti => (opField w).toNat = 8
  | .not dr sr1 => (opField w).toNat = 9 ∧ drField w = dr ∧ sr1Field w = sr1
  | .ldi dr off => (opField w).toNat = 10 ∧ drField w = dr ∧ offset9Field w = off
  | .sti sr off => (opField w).toNat = 11 ∧ drField w = sr ∧ offset9Field w = off
  | .jmp base => (opField w).toNat = 12 ∧ sr1Field w = base
  | .res => (opField w).toNat = 13
  | .lea dr off => (opField w).toNat = 14 ∧ drField w = dr ∧ offset9Field w = off
  | .trap v => (opField w).toNat = 15 ∧ trapvect8Field w = v

/-- What the encoder writes, on the bits that are not ignored (R62, R63). -/
theorem masked_eq_encode_iff (w : Word) (i : Instr) : w &&& ~~~ignoredBits i = encode i ↔ HasFields w i := by
  cases i with
  | br nzp off => exact eq_sum_br
  | addReg dr sr1 sr2 => exact eq_sum_oprReg 1 (by decide)
  | addImm dr sr1 imm => exact eq_sum_oprImm 1 (by decide)
  | ld dr off => exact eq_sum_pc9 2 (by decide)
  | st sr off => exact eq_sum_pc9 3 (by decide)
  | jsr off => exact eq_sum_jsr
  | jsrr base => exact eq_sum_jsrr
  | andReg dr sr1 sr2 => exact eq_sum_oprReg 5 (by decide)
  | andImm dr sr1 imm => exact eq_sum_oprImm 5 (by decide)
  | ldr dr base off => exact eq_sum_base6 6 (by decide)
  | str sr base off => exact eq_sum_base6 7 (by decide)
  | rti => exact eq_sum_none 8 (by decide)
  | not dr sr1 => exact eq_sum_not
  | ldi dr off => exact eq_sum_pc9 10 (by decide)
  | sti sr off => exact eq_sum_pc9 11 (by decide)
  | jmp base => exact eq_sum_jmp
  | res => exact eq_sum_none 13 (by decide)
  | lea dr off => exact eq_sum_pc9 14 (by decide)
  | trap v => exact eq_sum_trap

theorem hasFields_decode (w : Word) : HasFields w (decode w) := by
  have hlt := (opField w).isLt
  rw [decode]
  generalize hop : (opField w).toNat = n at hlt
  match n, hop with
  | 0, hop | 2, hop | 3, hop | 9, hop | 10, hop | 11, hop | 14, hop => exact ⟨hop, rfl, rfl⟩
  | 1, hop | 5, hop =>
    by_cases hf : immFlag w = 1
    · rw [decodeOpcode, if_pos hf]
      exact ⟨hop, hf, rfl, rfl, rfl⟩
    · rw [decodeOpcode, if_neg hf]
      exact ⟨hop, hf, rfl, rfl, rfl⟩
  | 4, hop =>
    by_cases hf : longFlag w = 1
    · rw [decodeOpcode, if_pos hf]
      exact ⟨hop, hf, rfl⟩
    · rw [decodeOpcode, if_neg hf]
      exact ⟨hop, hf, rfl⟩
  | 6, hop | 7, hop => exact ⟨hop, rfl, rfl, rfl⟩
  | 8, hop | 13, hop => exact hop
  | 12, hop | 15, hop => exact ⟨hop, rfl⟩
  | n + 16, _ => omega

theorem decode_of_hasFields {w : Word} {i : Instr} (h : HasFields w i) : decode w = i := by
  cases i with
  | br _ _ | ld _ _ | st _ _ | not _ _ | ldi _ _ | sti _ _ | lea _ _ =>
    obtain ⟨hop, rfl, rfl⟩ := h
    exact decode_of_opcode w _ hop
  | addReg _ _ _ | andReg _ _ _ =>
    obtain ⟨hop, hf, rfl, rfl, rfl⟩ := h
    rw [decode_of_opcode w _ hop]
    exact if_neg hf
  | addImm _ _ _ | andImm _ _ _ =>
    obtain ⟨hop, hf, rfl, rfl, rfl⟩ := h
    rw [decode_of_opcode w _ hop]
    exact if_pos hf
  | jsr _ =>
    obtain ⟨hop, hf, rfl⟩ := h
    rw [decode_of_opcode w _ hop]
    exact if_pos hf
  | jsrr _ =>
    obtain ⟨hop, hf, rfl⟩ := h
    rw [decode_of_opcode w _ hop]
    exact if_neg hf
  | ldr _ _ _ | str _ _ _ =>
    obtain ⟨hop, rfl, rfl, rfl⟩ := h
    exact decode_of_opcode w _ hop
  | rti | res => exact decode_of_opcode w _ h
  | jmp _ | trap _ =>
    obtain ⟨hop, rfl⟩ := h
    exact decode_of_opcode w _ hop

/-- A word decodes to an instruction exactly when it is the instruction's word but for the ignored bits (R63). -/
theorem decode_eq_iff (w : Word) (i : Instr) : decode w = i ↔ w &&& ~~~ignoredBits i = encode i := by
  rw [masked_eq_encode_iff]
  constructor
  · rintro rfl
    exact hasFields_decode w
  · exact decode_of_hasFields

/-- Settles O4: the decoded instruction's word is the word but for its ignored bits. -/
theorem encodeOfDecodeClearsIgnoredBits : Obligations.EncodeOfDecodeClearsIgnoredBits :=
  fun w => ((decode_eq_iff w _).1 rfl).symm

/-- Settles O5: both words decode to the instruction whose word they are but for its ignored bits. -/
theorem ignoredBitsChangeNothing : Obligations.IgnoredBitsChangeNothing := by
  refine ⟨fun _ _ _ => ⟨rfl, rfl⟩, fun _ _ => rfl, fun _ => rfl, fun _ => rfl, fun _ => rfl, rfl, rfl, fun w w' => ?_⟩
  rw [decode_eq_iff, encodeOfDecodeClearsIgnoredBits w]

/-- The encoder writes 0 in every ignored bit (R71). -/
theorem encode_and_not_ignoredBits (i : Instr) : encode i &&& ~~~ignoredBits i = encode i := by
  cases i with
  | addReg dr sr1 sr2 | andReg dr sr1 sr2 =>
    have h1 := dr.number_lt; have h2 := sr1.number_lt; have h3 := sr2.number_lt
    rw [encode, ignoredBits, eq_ofNat16_iff (by omega), toNat_and_not_0018, ofNat16_toNat _ (by omega)]
    omega
  | not dr sr1 =>
    have h1 := dr.number_lt; have h2 := sr1.number_lt
    rw [encode, ignoredBits, eq_ofNat16_iff (by omega), toNat_and_not_003F, ofNat16_toNat _ (by omega)]
    omega
  | jsrr base =>
    have h1 := base.number_lt
    rw [encode, ignoredBits, eq_ofNat16_iff (by omega), toNat_and_not_063F, ofNat16_toNat _ (by omega)]
    omega
  | jmp base =>
    have h1 := base.number_lt
    rw [encode, ignoredBits, eq_ofNat16_iff (by omega), toNat_and_not_0E3F, ofNat16_toNat _ (by omega)]
    omega
  | trap v =>
    have h1 := v.isLt
    rw [encode, ignoredBits, eq_ofNat16_iff (by omega), toNat_and_not_0F00, ofNat16_toNat _ (by omega)]
    omega
  | rti | res => decide
  | _ => exact and_not_zero _

/-- Settles O3: the instruction's own word is one of those that decode to it. -/
theorem decodeOfEncodeIsTheInstruction : Obligations.DecodeOfEncodeIsTheInstruction :=
  fun i _ => (decode_eq_iff _ i).2 (encode_and_not_ignoredBits i)

end Sys2Proof
end

section
/-! SUPPORT. The rows of the opcode table a word meets (spec/30_encoding.md R64, R65; spec/opcode_table.json). -/

namespace Sys2Proof

section
variable {w : Word} {n f : Nat}

theorem and_F000_eq (hop : (opField w).toNat = n) : w &&& 0xF000 = BitVec.ofNat 16 (n * 4096) := by
  have hlt := (opField w).isLt
  refine (eq_ofNat16_iff (by omega)).2 ((toNat_and_not_bitRange w 0 12).trans ?_)
  rw [opField_toNat] at hop
  omega

theorem and_F020_eq (hop : (opField w).toNat = n) (hf : (immFlag w).toNat = f) :
    w &&& 0xF020 = BitVec.ofNat 16 (n * 4096 + f * 32) := by
  have h1 := (opField w).isLt; have h2 := (immFlag w).isLt
  have hm : (0xF020 : Word) = ~~~(bitRange 6 6 ||| bitRange 0 5) := by decide
  rw [hm, and_not_or, eq_ofNat16_iff (by omega), toNat_and_not_bitRange, toNat_and_not_bitRange]
  rw [opField_toNat] at hop
  rw [immFlag_toNat] at hf
  omega

theorem and_F800_eq (hop : (opField w).toNat = n) (hf : (longFlag w).toNat = f) :
    w &&& 0xF800 = BitVec.ofNat 16 (n * 4096 + f * 2048) := by
  have h1 := (opField w).isLt; have h2 := (longFlag w).isLt
  refine (eq_ofNat16_iff (by omega)).2 ((toNat_and_not_bitRange w 0 11).trans ?_)
  rw [opField_toNat] at hop
  rw [longFlag_toNat] at hf
  omega

theorem bit_ne_one (b : BitVec 1) : ¬ b = 1 ↔ b.toNat = 0 := by
  revert b; decide

/-- A word meets the row of the instruction whose fields it has. -/
theorem HasFields.exists_row {i : Instr} (h : HasFields w i) :
    ∃ r ∈ opcodeTable, w &&& r.2.1 = r.2.2 ∧ r.1 = i.rowName := by
  cases i with
  | br _ _ => exact ⟨_, List.mem_of_getElem? (i := 0) rfl, and_F000_eq h.1, rfl⟩
  | addReg _ _ _ =>
    obtain ⟨hop, hf, -⟩ := h
    exact ⟨_, List.mem_of_getElem? (i := 1) rfl, and_F020_eq hop ((bit_ne_one _).1 hf), rfl⟩
  | addImm _ _ _ =>
    obtain ⟨hop, hf, -⟩ := h
    exact ⟨_, List.mem_of_getElem? (i := 2) rfl, and_F020_eq hop ((bit_eq_one _).1 hf), rfl⟩
  | ld _ _ => exact ⟨_, List.mem_of_getElem? (i := 3) rfl, and_F000_eq h.1, rfl⟩
  | st _ _ => exact ⟨_, List.mem_of_getElem? (i := 4) rfl, and_F000_eq h.1, rfl⟩
  | jsr _ =>
    obtain ⟨hop, hf, -⟩ := h
    exact ⟨_, List.mem_of_getElem? (i := 5) rfl, and_F800_eq hop ((bit_eq_one _).1 hf), rfl⟩
  | jsrr _ =>
    obtain ⟨hop, hf, -⟩ := h
    exact ⟨_, List.mem_of_getElem? (i := 6) rfl, and_F800_eq hop ((bit_ne_one _).1 hf), rfl⟩
  | andReg _ _ _ =>
    obtain ⟨hop, hf, -⟩ := h
    exact ⟨_, List.mem_of_getElem? (i := 7) rfl, and_F020_eq hop ((bit_ne_one _).1 hf), rfl⟩
  | andImm _ _ _ =>
    obtain ⟨hop, hf, -⟩ := h
    exact ⟨_, List.mem_of_getElem? (i := 8) rfl, and_F020_eq hop ((bit_eq_one _).1 hf), rfl⟩
  | ldr _ _ _ => exact ⟨_, List.mem_of_getElem? (i := 9) rfl, and_F000_eq h.1, rfl⟩
  | str _ _ _ => exact ⟨_, List.mem_of_getElem? (i := 10) rfl, and_F000_eq h.1, rfl⟩
  | rti => exact ⟨_, List.mem_of_getElem? (i := 11) rfl, and_F000_eq h, rfl⟩
  | not _ _ => exact ⟨_, List.mem_of_getElem? (i := 12) rfl, and_F000_eq h.1, rfl⟩
  | ldi _ _ => exact ⟨_, List.mem_of_getElem? (i := 13) rfl, and_F000_eq h.1, rfl⟩
  | sti _ _ => exact ⟨_, List.mem_of_getElem? (i := 14) rfl, and_F000_eq h.1, rfl⟩
  | jmp _ => exact ⟨_, List.mem_of_getElem? (i := 15) rfl, and_F000_eq h.1, rfl⟩
  | res => exact ⟨_, List.mem_of_getElem? (i := 16) rfl, and_F000_eq h, rfl⟩
  | lea _ _ => exact ⟨_, List.mem_of_getElem? (i := 17) rfl, and_F000_eq h.1, rfl⟩
  | trap _ => exact ⟨_, List.mem_of_getElem? (i := 18) rfl, and_F000_eq h.1, rfl⟩

end

/-- Two rows that agree on the bits both of them test are the same row. -/
theorem row_eq_of_agrees :
    ∀ q ∈ opcodeTable, ∀ r ∈ opcodeTable, q.2.2 &&& r.2.1 = r.2.2 &&& q.2.1 → q = r := by
  decide

/-- No word meets two rows. -/
theorem row_unique {w : Word} {q r : (String × String) × Word × Word} (hq : q ∈ opcodeTable) (hr : r ∈ opcodeTable)
    (hwq : w &&& q.2.1 = q.2.2) (hwr : w &&& r.2.1 = r.2.2) : q = r := by
  refine row_eq_of_agrees q hq r hr ?_
  rw [← hwq, ← hwr, BitVec.and_assoc, BitVec.and_assoc, BitVec.and_comm q.2.1]

/-- Settles O6: a word meets the row of the instruction it decodes to, and no other. -/
theorem everyWordMatchesExactlyOneRow : Obligations.EveryWordMatchesExactlyOneRow := by
  intro w
  obtain ⟨r, hr, hw, hname⟩ := (hasFields_decode w).exists_row
  exact ⟨r, hr, hw, hname, fun q hq hwq => row_unique hq hr hwq hw⟩

end Sys2Proof
end

section
/-! SUPPORT. The operands of assembled text: the sign extension of the field a number or a label is encoded to
(spec/30_encoding.md R60, R75 to R77). -/

namespace Sys2Proof.Machine

/-- A number in the range of an N-bit field is the value of the field's sign extension (R60, R77). -/
theorem toInt_sext_ofInt {n : Nat} {k : Int} (hn : n ≤ 16) (hpos : 0 < n) (h : fitsSigned n k = true) :
    (sext (BitVec.ofInt n k)).toInt = k := by
  simp only [fitsSigned, Bool.and_eq_true, decide_eq_true_eq] at h
  rw [sext, BitVec.toInt_signExtend_of_le hn, BitVec.toInt_ofInt_eq_self hpos h.1 h.2]

/-- The low bits of a word are those of its two's-complement value. -/
theorem field_eq_ofInt (n : Nat) (d : Word) (hn : n ≤ 16) : field 0 n d = BitVec.ofInt n d.toInt := by
  apply BitVec.eq_of_toInt_eq
  rw [field, ← BitVec.setWidth_eq_extractLsb' hn, BitVec.toInt_setWidth, BitVec.toInt_ofInt,
    BitVec.toInt_eq_toNat_bmod, Int.bmod_bmod_of_dvd (Nat.pow_dvd_pow 2 hn)]

theorem sext_field_of_fits {n : Nat} {d : Word} (hn : n ≤ 16) (hpos : 0 < n) (h : fitsSigned n d.toInt = true) :
    sext (field 0 n d) = d := by
  rw [field_eq_ofInt n d hn]
  exact BitVec.eq_of_toInt_eq (toInt_sext_ofInt hn hpos h)

/-- A label within reach is the sum of the incremented PC and the offset encoded for it (R75, R82). -/
theorem pc_add_sext_label {n : Nat} {A T : Word} (hn : n ≤ 16) (hpos : 0 < n) (h : reaches n A T = true) :
    A + 1 + sext ((PcOperand.label T).encoded n A) = T := by
  rw [PcOperand.encoded, sext_field_of_fits hn hpos h, labelOffset, BitVec.add_comm, BitVec.sub_add_cancel]

/-- Settles O8: the two reaches of `pc_add_sext_label`. -/
theorem assembledLabelIsTheAddressFormed : Obligations.AssembledLabelIsTheAddressFormed := by
  intro A T s hpc
  refine ⟨fun dr h => ⟨_, rfl, ?_⟩, fun h => ⟨_, rfl, ?_⟩⟩
  · rw [pcPlus9, hpc]
    exact pc_add_sext_label (by decide) (by decide) h
  · rw [pcPlus11, hpc]
    exact pc_add_sext_label (by decide) (by decide) h

/-- Settles O9: the four widths of `toInt_sext_ofInt`. -/
theorem assembledImmediateIsTheOperandValue : Obligations.AssembledImmediateIsTheOperandValue := by
  intro A dr sr1 n
  exact ⟨fun h => ⟨_, rfl, toInt_sext_ofInt (by decide) (by decide) h⟩,
    fun h => ⟨_, rfl, toInt_sext_ofInt (by decide) (by decide) h⟩,
    fun h => ⟨_, rfl, toInt_sext_ofInt (by decide) (by decide) h⟩,
    fun h => ⟨_, rfl, toInt_sext_ofInt (by decide) (by decide) h⟩⟩

end Sys2Proof.Machine
end

section
/-! SUPPORT. The cycle: the flag update, the dispatch of a running CORE, and which instructions answer a next state
(spec/40_cycle.md R81 to R94; spec/60_exceptions.md R136, R137). -/

namespace Sys2Proof

/-- No encoding is illegal (R66). -/
theorem Instr.wellFormed_eq_true (i : Instr) : i.wellFormed = true := by
  cases i <;> rfl

end Sys2Proof

namespace Sys2Proof.Machine

/-! ## The flag update and the dispatch -/

/-- Settles O11: the sign of a word is its bit 15. -/
theorem updateFlagsClassifiesTheRegister : Obligations.UpdateFlagsClassifiesTheRegister := by
  refine fun s i => ⟨?_, rfl⟩
  rw [State.updateFlags_cond, flagsOf, BitVec.msb_eq_getLsbD_last]
  rfl

/-- Settles O45: every instruction is well formed, and a running CORE dispatches the word at PC. -/
theorem stepRunsTheDecodedInstruction : Obligations.StepRunsTheDecodedInstruction := by
  rintro s i hr hs rfl
  exact ⟨Instr.wellFormed_eq_true _, step_of_running s hr hs⟩

/-- Settles O52: only the shape that defines a DR writes COND, and it classifies that DR. -/
theorem condIsWrittenOnlyByTheFlagUpdate : Obligations.CondIsWrittenOnlyByTheFlagUpdate :=
  fun i s t h => ⟨(exec_effect i s t h).cond_eq, (exec_effect i s t h).cond_eq_flagsOf⟩

/-! ## When a read blocks, and when a scan finds no end -/

/-- Nothing listed ends a line of the input, and the input is not at its end: a read may find no answer (R124). -/
def State.MayBlock (s : State) : Prop :=
  .failure ∉ s.input ∧ .byte newline ∉ s.input ∧ s.inputTail ≠ .ended

section
variable {s : State}

theorem mayBlock_of_ioReadByte_blocked (h : ioReadByte s = .blocked) : s.MayBlock := by
  obtain ⟨hi, ht⟩ := ioReadByte_blocked s h
  simp [State.MayBlock, hi, ht]

theorem mayBlock_of_ioReadLine_blocked (h : ioReadLine s = .blocked) : s.MayBlock := by
  obtain ⟨⟨hf, hn⟩, ht⟩ := ioReadLine_blocked s h
  exact ⟨hf, hn, ht⟩

/-- A scan that finds no end saw no 0x0000: the first would have been its end. -/
theorem read_ne_zero_of_stringLength_eq_none {m : Memory} {limit : Nat} {a : Word}
    (h : stringLength m limit a = none) (k : Nat) (hk : k < limit) : m.read (a + BitVec.ofNat 16 k).toNat ≠ 0 := by
  induction k using Nat.strongRecOn with
  | ind k ih =>
    intro h0
    have hsome := stringLength_eq_some m k limit a hk (fun j hj => ih j hj (by omega)) h0
    simp [h] at hsome

/-- A scan of 65536 words goes round the whole memory, from wherever it begins (R128). -/
theorem memRead_ne_zero_of_stringLength_eq_none {a : Word} (h : stringLength s.mem 65536 a = none) (b : Word) :
    s.memRead b ≠ 0 := by
  have hb : a + BitVec.ofNat 16 (b - a).toNat = b := by
    rw [BitVec.ofNat_toNat, BitVec.setWidth_eq, BitVec.add_comm, BitVec.sub_add_cancel]
  have hread := read_ne_zero_of_stringLength_eq_none h (b - a).toNat (b - a).isLt
  rwa [hb] at hread

/-! ## What keeps an instruction from completing -/

/-- The ways an instruction `i` run in `s` can end: a next state, or one of the two states the spec's CORE does not
leave (R137). -/
inductive Ending (s : State) : Instr → Result → Prop
  | completes {i : Instr} (t : State) : Ending s i (.next t)
  | blocks {v : BitVec 8} (hv : v = 0x20 ∨ v = 0x23 ∨ v = 0x26) (hs : s.MayBlock) :
      Ending s (.trap v) (.fault .blockedOnInput)
  | endless (hs : ∀ a : Word, s.memRead a ≠ 0) : Ending s (.trap 0x22) (.fault .endlessPuts)

variable (s)

theorem serviceGetc_ending : Ending s (.trap 0x20) (serviceGetc s) := by
  rw [serviceGetc]
  cases h : ioReadByte s with
  | ok b t => exact .completes _
  | fail t => exact .completes t
  | blocked => exact .blocks (by decide) (mayBlock_of_ioReadByte_blocked h)

theorem serviceIn_ending : Ending s (.trap 0x23) (serviceIn s) := by
  rw [serviceIn]
  cases h : ioReadByte s with
  | ok b t => exact .completes _
  | fail t => exact .completes t
  | blocked => exact .blocks (by decide) (mayBlock_of_ioReadByte_blocked h)

/-- A line that does not parse is no fault: R0 stays as it is (R132). -/
theorem serviceInu16_ending : Ending s (.trap 0x26) (serviceInu16 s) := by
  rw [serviceInu16]
  cases h : ioReadLine s with
  | ok line t =>
    simp only
    cases parseU16 s.config.inu16AllowPlus line with
    | some n => exact .completes _
    | none => exact .completes t
  | fail t => exact .completes t
  | blocked => exact .blocks (by decide) (mayBlock_of_ioReadLine_blocked h)

theorem servicePuts_ending : Ending s (.trap 0x22) (servicePuts s) := by
  rw [servicePuts]
  cases h : stringLength s.mem 65536 (s.reg .r0) with
  | some k => exact .completes _
  | none => exact .endless (memRead_ne_zero_of_stringLength_eq_none h)

theorem execTrap_ending (v : BitVec 8) : Ending s (.trap v) (execTrap v s) := by
  rcases serviceOf_cases v with ⟨rfl, -⟩ | ⟨rfl, -⟩ | ⟨rfl, -⟩ | ⟨rfl, -⟩ | ⟨rfl, -⟩ | ⟨rfl, -⟩ | ⟨rfl, -⟩ | ⟨rfl, -⟩ |
    ⟨hv, -⟩
  · exact serviceGetc_ending s
  · exact .completes _
  · exact servicePuts_ending s
  · exact serviceIn_ending s
  · exact .completes _
  · exact .completes _
  · exact serviceInu16_ending s
  · exact .completes _
  · rw [execTrap_unmapped v s hv]
    cases s.config.trapUnmapped with
    | nop => exact .completes _
    | fault => exact .completes _

/-- Only a TRAP can keep a step from completing: every other handler answers a next state in every state (R94). -/
theorem exec_ending (i : Instr) : Ending s i (exec i s) := by
  cases i with
  | trap v => exact execTrap_ending s v
  | jsrr base =>
    rw [exec, execJsrr]
    cases s.config.jsrrOrder with
    | linkFirst => exact .completes _
    | targetFirst => exact .completes _
  | _ => exact .completes _

variable {s}

/-- A stop is raised under `TRAP_UNMAPPED = FAULT` alone (R117, R138). -/
theorem Effect.stop_eq_of_nop {i : Instr} {t : State} (h : Effect s i t) (hn : s.config.trapUnmapped = .nop) :
    t.stop = s.stop := by
  rcases h.run_stop_cases with ⟨-, hs⟩ | ⟨-, -, hs⟩ | ⟨v, -, -, hf, -, -⟩
  · exact hs
  · exact hs
  · simp [hn] at hf

end

/-- Settles O58: an instruction completes, with no stop raised by the default machine, or ends in one of the two ways
of R137. -/
theorem noInstructionFaults : Obligations.NoInstructionFaults := by
  intro i s
  generalize hr : exec i s = r
  cases hr ▸ exec_ending s i with
  | completes t => exact .inl ⟨t, rfl, (exec_effect i s t hr).stop_eq_of_nop⟩
  | blocks hv hs => exact .inr (.inl ⟨rfl, by simpa using hv, hs⟩)
  | endless hs => exact .inr (.inr ⟨rfl, rfl, hs⟩)

end Sys2Proof.Machine
end

section
/-! SUPPORT. What the masks of the opcode table say of a word, and the end that every handler writing DR and the flags
has; with them ADD, AND and NOT (spec/41_operate.md R96 to R100). -/

namespace Sys2Proof

/-! ## A word that meets a mask (R64, R65) -/

section
variable {w v : Word}

/-- The mask of a row without a secondary decode keeps the opcode. -/
theorem opcode_eq_of_mask_F000 (h : w &&& 0xF000 = v) : (opField w).toNat = (opField v).toNat :=
  congrArg BitVec.toNat (opField_of_mask w _ v h (by decide))

/-- The mask of a row of ADD or AND keeps the opcode and `imm_flag`. -/
theorem opcode_immFlag_eq_of_mask_F020 (h : w &&& 0xF020 = v) :
    (opField w).toNat = (opField v).toNat ∧ immFlag w = immFlag v :=
  ⟨congrArg BitVec.toNat (opField_of_mask w _ v h (by decide)), immFlag_of_mask w _ v h (by decide)⟩

theorem decode_eq_addReg (h : w &&& 0xF020 = 0x1000) : decode w = .addReg (drField w) (sr1Field w) (sr2Field w) := by
  obtain ⟨hop, hf⟩ := opcode_immFlag_eq_of_mask_F020 h
  exact decode_of_hasFields ⟨hop, by rw [hf]; decide, rfl, rfl, rfl⟩

theorem decode_eq_addImm (h : w &&& 0xF020 = 0x1020) : decode w = .addImm (drField w) (sr1Field w) (imm5Field w) := by
  obtain ⟨hop, hf⟩ := opcode_immFlag_eq_of_mask_F020 h
  exact decode_of_hasFields ⟨hop, hf, rfl, rfl, rfl⟩

theorem decode_eq_andReg (h : w &&& 0xF020 = 0x5000) : decode w = .andReg (drField w) (sr1Field w) (sr2Field w) := by
  obtain ⟨hop, hf⟩ := opcode_immFlag_eq_of_mask_F020 h
  exact decode_of_hasFields ⟨hop, by rw [hf]; decide, rfl, rfl, rfl⟩

theorem decode_eq_andImm (h : w &&& 0xF020 = 0x5020) : decode w = .andImm (drField w) (sr1Field w) (imm5Field w) := by
  obtain ⟨hop, hf⟩ := opcode_immFlag_eq_of_mask_F020 h
  exact decode_of_hasFields ⟨hop, hf, rfl, rfl, rfl⟩

theorem decode_eq_not (h : w &&& 0xF000 = 0x9000) : decode w = .not (drField w) (sr1Field w) :=
  decode_of_hasFields ⟨opcode_eq_of_mask_F000 h, rfl, rfl⟩

end

end Sys2Proof

namespace Sys2Proof.Machine

/-! ## The ALU (R90, R91) -/

theorem add16_toNat (a b : Word) : (add16 a b).toNat = (a.toNat + b.toNat) % 65536 := BitVec.toNat_add a b

theorem and16_getLsbD (a b : Word) (k : Nat) : (and16 a b).getLsbD k = (a.getLsbD k && b.getLsbD k) :=
  BitVec.getLsbD_and

theorem not16_toNat_add (a : Word) : (not16 a).toNat + a.toNat = 65535 := by
  have hlt := a.isLt
  rw [not16, BitVec.toNat_not]
  omega

/-! ## The handlers -/

/-- A handler that ends in `State.define` completes, with the value in DR, its flags in COND and nothing else changed
(R88, R89). -/
theorem exists_definesOnly {i : Instr} {s : State} {dr : Reg} {v : Word} (h : exec i s = .next (s.define dr v)) :
    ∃ t, exec i s = .next t ∧ t.reg dr = v ∧ t.cond = flagsOf (t.reg dr) ∧ DefinesOnly dr s t :=
  ⟨s.define dr v, h, s.define_reg_same dr v, by simp, define_definesOnly s dr v⟩

/-- Settles O13: DR is defined as the adder's sum of the two registers. -/
theorem addRegisterMode : Obligations.AddRegisterMode := by
  refine ⟨fun w => decode_eq_addReg, fun dr sr1 sr2 s => ?_⟩
  obtain ⟨t, hx, hv, hframe⟩ := exists_definesOnly (i := .addReg dr sr1 sr2) (s := s) rfl
  exact ⟨t, hx, hv ▸ add16_toNat _ _, hframe⟩

/-- Settles O14: DR is defined as the adder's sum of the register and the extended immediate. -/
theorem addImmediateMode : Obligations.AddImmediateMode := by
  refine ⟨fun w => decode_eq_addImm, fun dr sr1 imm5 s => ?_⟩
  obtain ⟨t, hx, hv, hframe⟩ := exists_definesOnly (i := .addImm dr sr1 imm5) (s := s) rfl
  exact ⟨t, hx, hv ▸ add16_toNat _ _, hframe⟩

/-- Settles O15: DR is defined as the bitwise AND of the two registers. -/
theorem andRegisterMode : Obligations.AndRegisterMode := by
  refine ⟨fun w => decode_eq_andReg, fun dr sr1 sr2 s => ?_⟩
  obtain ⟨t, hx, hv, hframe⟩ := exists_definesOnly (i := .andReg dr sr1 sr2) (s := s) rfl
  exact ⟨t, hx, hv ▸ and16_getLsbD _ _, hframe⟩

/-- Settles O16: DR is defined as the bitwise AND of the register and the extended immediate. -/
theorem andImmediateMode : Obligations.AndImmediateMode := by
  refine ⟨fun w => decode_eq_andImm, fun dr sr1 imm5 s => ?_⟩
  obtain ⟨t, hx, hv, hframe⟩ := exists_definesOnly (i := .andImm dr sr1 imm5) (s := s) rfl
  exact ⟨t, hx, hv ▸ and16_getLsbD _ _, hframe⟩

/-- Settles O17: DR is defined as the complement of the register. -/
theorem notComplements : Obligations.NotComplements := by
  refine ⟨fun w => decode_eq_not, fun dr sr1 s => ?_⟩
  obtain ⟨t, hx, hv, hframe⟩ := exists_definesOnly (i := .not dr sr1) (s := s) rfl
  exact ⟨t, hx, hv ▸ not16_toNat_add _, hframe⟩

end Sys2Proof.Machine
end

section
/-! SUPPORT. The end that every handler storing one word has, and the loads, the stores and LEA
(spec/42_data_movement.md R101 to R107). The opcode alone selects each of the seven (R64). -/

namespace Sys2Proof.Machine

/-- A handler that ends in `State.memWrite` completes, with the value at the address and nothing else changed (R31). -/
theorem exists_storesOnly {i : Instr} {s : State} {ea v : Word} (hwf : s.mem.wf = true)
    (h : exec i s = .next (s.memWrite ea v)) : ∃ t, exec i s = .next t ∧ t.memRead ea = v ∧ StoresOnly ea s t :=
  ⟨s.memWrite ea v, h, s.memRead_memWrite_same ea v hwf, memWrite_storesOnly s ea v⟩

/-! ## The loads and LEA: `State.define` -/

/-- Settles O18: DR is defined as the word at the PC-relative address. -/
theorem ldLoadsPcRelative : Obligations.LdLoadsPcRelative :=
  ⟨fun _ h => decode_of_hasFields ⟨opcode_eq_of_mask_F000 h, rfl, rfl⟩, fun _ _ _ => exists_definesOnly rfl⟩

/-- Settles O20: DR is defined as the word at the base-relative address, formed before DR is written. -/
theorem ldrLoadsBaseRelative : Obligations.LdrLoadsBaseRelative :=
  ⟨fun _ h => decode_of_hasFields ⟨opcode_eq_of_mask_F000 h, rfl, rfl, rfl⟩, fun _ _ _ _ => exists_definesOnly rfl⟩

/-- Settles O22: DR is defined as the word at the address the pointer holds. -/
theorem ldiLoadsIndirect : Obligations.LdiLoadsIndirect :=
  ⟨fun _ h => decode_of_hasFields ⟨opcode_eq_of_mask_F000 h, rfl, rfl⟩, fun _ _ _ => exists_definesOnly rfl⟩

/-- Settles O24: DR is defined as the address adder's sum, and the handler lists no access. -/
theorem leaFormsTheAddress : Obligations.LeaFormsTheAddress := by
  refine ⟨fun _ h => decode_of_hasFields ⟨opcode_eq_of_mask_F000 h, rfl, rfl⟩, fun dr off s => ?_⟩
  obtain ⟨t, hx, hv, hframe⟩ := exists_definesOnly (i := .lea dr off) (s := s) rfl
  exact ⟨t, hx, hv ▸ BitVec.toNat_add s.pc (sext off), rfl, hframe⟩

/-! ## The stores: `State.memWrite` -/

/-- Settles O19: SR is written at the PC-relative address. -/
theorem stStoresPcRelative : Obligations.StStoresPcRelative :=
  ⟨fun _ h => decode_of_hasFields ⟨opcode_eq_of_mask_F000 h, rfl, rfl⟩, fun _ _ _ hwf => exists_storesOnly hwf rfl⟩

/-- Settles O21: SR is written at the base-relative address. -/
theorem strStoresBaseRelative : Obligations.StrStoresBaseRelative :=
  ⟨fun _ h => decode_of_hasFields ⟨opcode_eq_of_mask_F000 h, rfl, rfl, rfl⟩,
    fun _ _ _ _ hwf => exists_storesOnly hwf rfl⟩

/-- Settles O23: SR is written at the address the pointer held before the write. -/
theorem stiStoresIndirect : Obligations.StiStoresIndirect :=
  ⟨fun _ h => decode_of_hasFields ⟨opcode_eq_of_mask_F000 h, rfl, rfl⟩, fun _ _ _ hwf => exists_storesOnly hwf rfl⟩

end Sys2Proof.Machine
end

section
/-! SUPPORT. The two ends a control transfer has, a jump and a jump with a link, and the predicate of BR; with them BR,
JSR, JSRR, JMP and RET (spec/43_control.md R108 to R112). -/

namespace Sys2Proof

/-- The mask of JSR and JSRR keeps the opcode and `long_flag` (R65). -/
theorem opcode_longFlag_eq_of_mask_F800 {w v : Word} (h : w &&& 0xF800 = v) :
    (opField w).toNat = (opField v).toNat ∧ longFlag w = longFlag v :=
  ⟨congrArg BitVec.toNat (opField_of_mask w _ v h (by decide)), longFlag_of_mask w _ v h (by decide)⟩

theorem decode_eq_jsr {w : Word} (h : w &&& 0xF800 = 0x4800) : decode w = .jsr (offset11Field w) := by
  obtain ⟨hop, hf⟩ := opcode_longFlag_eq_of_mask_F800 h
  exact decode_of_hasFields ⟨hop, hf, rfl⟩

theorem decode_eq_jsrr {w : Word} (h : w &&& 0xF800 = 0x4000) : decode w = .jsrr (sr1Field w) := by
  obtain ⟨hop, hf⟩ := opcode_longFlag_eq_of_mask_F800 h
  exact decode_of_hasFields ⟨hop, by rw [hf]; decide, rfl⟩

theorem decode_eq_jmp {w : Word} (h : w &&& 0xF000 = 0xC000) : decode w = .jmp (sr1Field w) :=
  decode_of_hasFields ⟨opcode_eq_of_mask_F000 h, rfl⟩

end Sys2Proof

namespace Sys2Proof.Machine

/-! ## The predicate of BR (R108) -/

@[simp] theorem branchTaken_nonzero (cond : Word) (nzp : BitVec 3) :
    branchTaken .nonzero cond nzp = decide (cond &&& zext nzp ≠ 0) := rfl

@[simp] theorem branchTaken_equalsOne (cond : Word) (nzp : BitVec 3) :
    branchTaken .equalsOne cond nzp = decide (cond &&& zext nzp = 1) := rfl

/-- Both predicates refuse the value 0, which an empty COND or an empty mask leaves. -/
theorem branchTaken_of_and_eq_zero (p : BrPredicate) {cond : Word} {nzp : BitVec 3} (h : cond &&& zext nzp = 0) :
    branchTaken p cond nzp = false := by
  cases p with
  | nonzero => simp [h]
  | equalsOne => simp [h]

theorem twoPow_ne_zero {k : Nat} (hk : k < 16) : BitVec.twoPow 16 k ≠ 0#16 := fun h => by
  simpa [hk] using congrArg (BitVec.getLsbD · k) h

/-- A COND with one flag set leaves that flag, if the mask has its bit, and nothing otherwise. -/
theorem twoPow_and_zext {k : Nat} (hk : k < 16) (nzp : BitVec 3) :
    BitVec.twoPow 16 k &&& zext nzp = if nzp.getLsbD k then BitVec.twoPow 16 k else 0 := by
  simp [zext, BitVec.twoPow_and, hk]

theorem branchTaken_nonzero_twoPow {k : Nat} (hk : k < 16) (nzp : BitVec 3) :
    branchTaken .nonzero (BitVec.twoPow 16 k) nzp = nzp.getLsbD k := by
  rw [branchTaken_nonzero, twoPow_and_zext hk]
  simp [twoPow_ne_zero hk]

/-- `EQUALS_ONE` takes the branch only for the flag whose value is 1. -/
theorem branchTaken_equalsOne_twoPow {k : Nat} (hk : k < 16) (nzp : BitVec 3) :
    branchTaken .equalsOne (BitVec.twoPow 16 k) nzp = (nzp.getLsbD k && decide (BitVec.twoPow 16 k = 1)) := by
  rw [branchTaken_equalsOne, twoPow_and_zext hk]
  cases nzp.getLsbD k with
  | true => simp
  | false => rfl

/-- Settles O26: COND and the mask have a bit in common or not; N, Z and P are bits 2, 1 and 0. -/
theorem branchOutcomeTable : Obligations.BranchOutcomeTable := by
  refine ⟨fun p nzp => branchTaken_of_and_eq_zero p BitVec.zero_and,
    fun p cond => branchTaken_of_and_eq_zero p BitVec.and_zero,
    branchTaken_nonzero_twoPow (k := 2) (by decide), branchTaken_nonzero_twoPow (k := 1) (by decide),
    branchTaken_nonzero_twoPow (k := 0) (by decide), fun nzp => ?_, fun nzp => ?_, fun nzp => ?_⟩
  · exact (branchTaken_equalsOne_twoPow (k := 2) (by decide) nzp).trans (Bool.and_false _)
  · exact (branchTaken_equalsOne_twoPow (k := 1) (by decide) nzp).trans (Bool.and_false _)
  · exact (branchTaken_equalsOne_twoPow (k := 0) (by decide) nzp).trans (Bool.and_true _)

/-! ## BR and JMP: `State.setPc` -/

/-- A handler that ends in `State.setPc` completes, with the target in PC and nothing else changed (R11). -/
theorem exists_jumpsOnly {i : Instr} {s : State} {target : Word} (h : exec i s = .next (s.setPc target)) :
    ∃ t, exec i s = .next t ∧ t.pc = target ∧ TransfersOnly [] s t :=
  ⟨s.setPc target, h, rfl, setPc_transfersOnly s target⟩

/-- A branch that is not taken jumps to the PC it has. -/
theorem exec_br (nzp : BitVec 3) (off : BitVec 9) (s : State) :
    exec (.br nzp off) s =
      .next (s.setPc (if branchTaken s.config.brPredicate s.cond nzp then s.pc + sext off else s.pc)) := by
  rw [exec, execBr]
  cases branchTaken s.config.brPredicate s.cond nzp with
  | true => rfl
  | false => rfl

/-- Settles O25: the target of `exec_br`, with the test of each predicate. -/
theorem brTransfersWhenTaken : Obligations.BrTransfersWhenTaken := by
  refine ⟨fun w h => decode_of_hasFields ⟨opcode_eq_of_mask_F000 h, rfl, rfl⟩, fun nzp off s => ?_⟩
  obtain ⟨t, hx, hpc, hframe⟩ := exists_jumpsOnly (exec_br nzp off s)
  refine ⟨t, hx, fun hp => ?_, fun hp => ?_, hframe⟩
  · simp [hpc, hp]
  · simp [hpc, hp]

/-- Settles O29: PC is set to the base register. -/
theorem jmpTransfers : Obligations.JmpTransfers :=
  ⟨fun _ => decode_eq_jmp, fun _ _ => exists_jumpsOnly rfl⟩

/-! ## JSR and JSRR: the link in R7, then `State.setPc` -/

/-- A handler that links and then jumps completes, with the address after the call in R7, the target in PC and nothing
else changed (R109, R110). -/
theorem exists_callsOnly {i : Instr} {s : State} {target : Word}
    (h : exec i s = .next ((s.setReg .r7 s.pc).setPc target)) :
    ∃ t, exec i s = .next t ∧ t.reg .r7 = s.pc ∧ t.pc = target ∧ TransfersOnly [.r7] s t :=
  ⟨_, h, s.setReg_reg_same .r7 s.pc, rfl, link_transfersOnly s s.pc target⟩

/-- Settles O27: R7 is linked and PC set to the adder's sum of the incremented PC. -/
theorem jsrLinksAndTransfers : Obligations.JsrLinksAndTransfers :=
  ⟨fun _ => decode_eq_jsr, fun _ _ => exists_callsOnly rfl⟩

/-- The base is read after the link write, so R7 gives the link. -/
theorem exec_jsrr_linkFirst (base : Reg) {s : State} (h : s.config.jsrrOrder = .linkFirst) :
    exec (.jsrr base) s =
      .next ((s.setReg .r7 s.pc).setPc (if base = .r7 then s.pc else s.reg base)) := by
  rw [exec, execJsrr, h, ← State.setReg_reg]

/-- The base is read before the link write. -/
theorem exec_jsrr_targetFirst (base : Reg) {s : State} (h : s.config.jsrrOrder = .targetFirst) :
    exec (.jsrr base) s = .next ((s.setReg .r7 s.pc).setPc (s.reg base)) := by
  rw [exec, execJsrr, h]

/-- Settles O28: the two orders differ in the target alone. -/
theorem jsrrLinksAndTransfers : Obligations.JsrrLinksAndTransfers := by
  refine ⟨fun w => decode_eq_jsrr, fun base s => ?_⟩
  cases ho : s.config.jsrrOrder with
  | linkFirst =>
    obtain ⟨t, hx, hlink, hpc, hframe⟩ := exists_callsOnly (exec_jsrr_linkFirst base ho)
    exact ⟨t, hx, hlink, fun _ => hpc, nofun, hframe⟩
  | targetFirst =>
    obtain ⟨t, hx, hlink, hpc, hframe⟩ := exists_callsOnly (exec_jsrr_targetFirst base ho)
    exact ⟨t, hx, hlink, nofun, fun _ => hpc, hframe⟩

/-! ## RET -/

/-- Both kinds of call leave the address after the call in R7. -/
theorem reg_r7_of_call {call : Instr} {s t : State} (hc : (∃ off, call = .jsr off) ∨ (∃ base, call = .jsrr base))
    (h : exec call s = .next t) : t.reg .r7 = s.pc := by
  have hlink : ∃ t', exec call s = .next t' ∧ t'.reg .r7 = s.pc := by
    rcases hc with ⟨off, rfl⟩ | ⟨base, rfl⟩
    · obtain ⟨t', hx, hlink, -⟩ := jsrLinksAndTransfers.2 off s
      exact ⟨t', hx, hlink⟩
    · obtain ⟨t', hx, hlink, -⟩ := jsrrLinksAndTransfers.2 base s
      exact ⟨t', hx, hlink⟩
  obtain ⟨t', hx, hlink⟩ := hlink
  cases hx.symm.trans h
  exact hlink

/-- Settles O30: RET jumps to R7, which still holds the link. -/
theorem retReturnsToTheAddressAfterTheCall : Obligations.RetReturnsToTheAddressAfterTheCall := by
  refine ⟨decode_eq_jmp (by decide), fun call s t u hc h hu => ?_⟩
  obtain ⟨v, hx, hpc, -⟩ := jmpTransfers.2 .r7 u
  exact ⟨v, hx, hpc.trans (hu.trans (reg_r7_of_call hc h))⟩

end Sys2Proof.Machine
end

section
/-! SUPPORT. The no-ops, as a handler and as a step, and what every TRAP leaves as it is (spec/44_system.md R113 to
R118). -/

namespace Sys2Proof

theorem decode_eq_rti {w : Word} (h : w &&& 0xF000 = 0x8000) : decode w = .rti :=
  decode_of_hasFields (i := .rti) (opcode_eq_of_mask_F000 h)

theorem decode_eq_res {w : Word} (h : w &&& 0xF000 = 0xD000) : decode w = .res :=
  decode_of_hasFields (i := .res) (opcode_eq_of_mask_F000 h)

theorem decode_eq_trap {w : Word} (h : w &&& 0xF000 = 0xF000) : decode w = .trap (trapvect8Field w) :=
  decode_of_hasFields ⟨opcode_eq_of_mask_F000 h, rfl⟩

end Sys2Proof

namespace Sys2Proof.Machine

/-! ## TRAP -/

section
variable {s t : State} {v : BitVec 8}

/-- TRAP links nothing: it writes R0 or no register (R118, R135). -/
theorem r7_not_mem_mayDefine_trap : .r7 ∉ mayDefine (.trap v) := by
  rw [mayDefine]
  split
  · decide
  · decide

theorem Effect.trap_mem_eq (h : Effect s (.trap v) t) : t.mem = s.mem := by
  rcases h.stores_or_mem_eq with ⟨ea, w, -, ha⟩ | ⟨hm, -⟩
  · exact absurd ((ha ea w).2 ⟨rfl, rfl⟩) (accesses_trap_no_write v s ea w)
  · exact hm

end

/-- Settles O44: no shape the effect of a TRAP can have writes R7, PC, COND or memory. -/
theorem trapNeitherLinksNorJumps : Obligations.TrapNeitherLinksNorJumps := by
  refine ⟨fun w => decode_eq_trap, fun v s t h => ?_⟩
  have he := exec_effect (.trap v) s t h
  exact ⟨he.regsSameExcept .r7 r7_not_mem_mayDefine_trap, he.pc_eq rfl, he.cond_eq rfl,
    fun a => congrArg (Memory.read · a.toNat) he.trap_mem_eq⟩

/-- Settles O42: the dispatcher finds no service, and `TRAP_UNMAPPED` selects the answer. -/
theorem unmappedTrap : Obligations.UnmappedTrap := by
  intro v s hv
  rw [exec, execTrap_unmapped v s hv]
  refine ⟨fun hn => ?_, fun hf => ?_⟩
  · rw [hn]
  · rw [hf, State.raiseStop]

/-! ## RTI and RES -/

section
variable {s : State}

theorem stepAccesses_of_running (hr : s.run = true) (hs : s.stop = none) :
    stepAccesses s = .read s.pc :: accesses (decode (s.memRead s.pc)) s.incrementPc := by
  rw [stepAccesses, (loopState_running s).2 ⟨hr, hs⟩]
  rfl

/-- A step whose handler is a no-op without an access increments PC and fetches, and that is all (R81, R82, R92). -/
theorem step_of_noOperation (hr : s.run = true) (hs : s.stop = none) {i : Instr} (hi : decode (s.memRead s.pc) = i)
    (hx : exec i s.incrementPc = .next s.incrementPc) (ha : accesses i s.incrementPc = []) :
    step s = .next { s with pc := s.pc + 1 } ∧ stepAccesses s = [.read s.pc] := by
  rw [step_of_running s hr hs, stepAccesses_of_running hr hs, hi, hx, ha]
  exact ⟨rfl, rfl⟩

end

/-- Settles O31: the opcode alone selects each of the two, and each is a no-op without an access. -/
theorem rtiAndResOnlyAdvancePc : Obligations.RtiAndResOnlyAdvancePc := by
  refine ⟨fun w => decode_eq_rti, fun w => decode_eq_res, fun s => ⟨rfl, rfl⟩, fun s hr hs hi => ?_⟩
  rcases hi with hi | hi
  · exact step_of_noOperation hr hs hi rfl rfl
  · exact step_of_noOperation hr hs hi rfl rfl

end Sys2Proof.Machine
end

section
/-! SUPPORT. The two conversions between numbers and text: which lines the parser accepts, the decimal digits of a
number, and that the parser reads back what was printed (spec/45_trap_services.md R133, R134). -/

namespace Sys2Proof.Machine

/-! ## The lines the parser accepts (R133) -/

/-- The six whitespace bytes of R133 step 1. -/
theorem isSpace_iff (b : Byte) :
    isSpace b = true ↔ b ∈ ([0x09, 0x0A, 0x0B, 0x0C, 0x0D, 0x20] : List Byte) := by
  simp [isSpace, or_assoc]

/-- A '+' that step 2 of R133 drops: none, or one where the parameter allows it. -/
def IsPlus (allowPlus : Bool) (plus : List Byte) : Prop := plus = [] ∨ (allowPlus = true ∧ plus = [0x2B])

theorem dropPlus_split (allowPlus : Bool) (s : List Byte) :
    ∃ plus, s = plus ++ dropPlus allowPlus s ∧ IsPlus allowPlus plus := by
  cases s with
  | nil => exact ⟨[], rfl, .inl rfl⟩
  | cons b rest =>
    rw [dropPlus]
    split
    · rename_i h
      obtain ⟨ha, rfl⟩ : allowPlus = true ∧ b = 0x2B := by simpa using h
      exact ⟨[0x2B], rfl, .inr ⟨ha, rfl⟩⟩
    · exact ⟨[], rfl, .inl rfl⟩

section
variable {allowPlus : Bool} {plus digits : List Byte}

/-- A digit is no '+', so at most the one before the digits is dropped. -/
theorem dropPlus_plus_append (hp : IsPlus allowPlus plus) (hd : ∀ b ∈ digits, isDigit b = true) :
    dropPlus allowPlus (plus ++ digits) = digits := by
  rcases hp with rfl | ⟨rfl, rfl⟩
  · cases digits with
    | nil => rfl
    | cons b rest =>
      have hb : b ≠ 0x2B := by
        rintro rfl
        exact absurd (hd 0x2B List.mem_cons_self) (by decide)
      simpa [dropPlus] using fun _ => hb
  · rfl

theorem isSpace_of_mem_plus_append (hp : IsPlus allowPlus plus) (hd : ∀ b ∈ digits, isDigit b = true) :
    ∀ b ∈ plus ++ digits, isSpace b = false := by
  intro b hb
  rcases List.mem_append.1 hb with hb | hb
  · rcases hp with rfl | ⟨-, rfl⟩
    · simp at hb
    · rw [List.mem_singleton.1 hb]; rfl
  · exact isSpace_of_digit b ((isDigit_iff b).1 (hd b hb))

theorem trim_plus_append {before after : List Byte} (hb : ∀ b ∈ before, isSpace b = true)
    (ha : ∀ b ∈ after, isSpace b = true) (hp : IsPlus allowPlus plus) (hne : digits ≠ [])
    (hd : ∀ b ∈ digits, isDigit b = true) : trim (before ++ (plus ++ digits) ++ after) = plus ++ digits := by
  have hs := isSpace_of_mem_plus_append hp hd
  exact trim_middle before (plus ++ digits) after hb ha (by simp [hne]) (fun b h => hs b (List.mem_of_head? h))
    (fun b h => hs b (List.mem_of_getLast? h))

end

/-- The steps of R133 taken together, in the model's own predicates. -/
theorem parseU16_eq_some_iff (allowPlus : Bool) (s : List Byte) (n : Word) :
    parseU16 allowPlus s = some n ↔
      ∃ before plus digits after, s = before ++ (plus ++ digits) ++ after ∧ (∀ b ∈ before, isSpace b = true) ∧
        (∀ b ∈ after, isSpace b = true) ∧ IsPlus allowPlus plus ∧ digits ≠ [] ∧ (∀ b ∈ digits, isDigit b = true) ∧
        decimalValue digits = n.toNat := by
  rw [parseU16]
  constructor
  · intro h
    obtain ⟨before, after, hs, hb, ha⟩ := trim_split s
    obtain ⟨plus, ht, hp⟩ := dropPlus_split allowPlus (trim s)
    exact ⟨before, plus, _, after, ht ▸ hs, hb, ha, hp, (parseDigits_eq_some _ n).1 h⟩
  · rintro ⟨before, plus, digits, after, rfl, hb, ha, hp, hne, hdig, hval⟩
    rw [trim_plus_append hb ha hp hne hdig, dropPlus_plus_append hp hdig]
    exact (parseDigits_eq_some digits n).2 ⟨hne, hdig, hval⟩

/-- Settles O39: `parseU16_eq_some_iff` with the bytes of each class written out. -/
theorem parseAcceptsExactlyTheDecimalLines : Obligations.ParseAcceptsExactlyTheDecimalLines := by
  intro allowPlus s n
  rw [parseU16_eq_some_iff]
  simp only [isSpace_iff, isDigit_iff, List.forall_mem_append, List.append_assoc, and_assoc]
  rfl

/-! ## The decimal digits of a number (R134) -/

theorem isDigit_digitByte {d : Nat} (h : d < 10) : isDigit (digitByte d) = true := by
  rw [isDigit_iff, digitByte_toNat d h]
  omega

theorem digitValue_digitByte {d : Nat} (h : d < 10) : digitValue (digitByte d) = d := by
  rw [digitValue, digitByte_toNat d h]
  omega

theorem isDigit_of_mem_digitsUpTo {n v : Nat} : ∀ b ∈ digitsUpTo n v, isDigit b = true := by
  induction n generalizing v with
  | zero => simp [digitsUpTo]
  | succ n ih =>
    rw [digitsUpTo]
    split
    · exact List.forall_mem_singleton.2 (isDigit_digitByte (by assumption))
    · exact List.forall_mem_append.2 ⟨ih, List.forall_mem_singleton.2 (isDigit_digitByte (by omega))⟩

theorem decimalValue_digitsUpTo {n v : Nat} (h : v < 10 ^ n) : decimalValue (digitsUpTo n v) = v := by
  induction n generalizing v with
  | zero =>
    obtain rfl : v = 0 := by omega
    rfl
  | succ n ih =>
    rw [digitsUpTo]
    split
    · rw [← List.nil_append [digitByte v], decimalValue_snoc, digitValue_digitByte (by assumption)]
      simp [decimalValue]
    · rw [decimalValue_snoc, ih (by omega), digitValue_digitByte (by omega)]
      omega

/-- A positive number is printed without leading zeros: its first digit is one of 1 to 9. -/
theorem head?_digitsUpTo {n v : Nat} (h : v < 10 ^ n) (hv : 0 < v) :
    ∃ d, 0 < d ∧ d < 10 ∧ (digitsUpTo n v).head? = some (digitByte d) := by
  induction n generalizing v with
  | zero => omega
  | succ n ih =>
    rw [digitsUpTo]
    split
    · exact ⟨v, hv, by assumption, rfl⟩
    · obtain ⟨d, h0, h10, hd⟩ := ih (v := v / 10) (by omega) (by omega)
      exact ⟨d, h0, h10, by simp [hd]⟩

section
variable (v : Word)

theorem isDigit_of_mem_decimalDigits : ∀ b ∈ decimalDigits v, isDigit b = true := isDigit_of_mem_digitsUpTo

/-- Five digits are enough for every word. -/
theorem decimalValue_decimalDigits : decimalValue (decimalDigits v) = v.toNat :=
  decimalValue_digitsUpTo (by omega)

/-- The form of 0 is "0", and that of another word begins with another digit. -/
theorem decimalDigits_cases : decimalDigits v = [0x30] ∨
    ∃ d, 0 < d ∧ d < 10 ∧ (decimalDigits v).head? = some (digitByte d) := by
  rcases Nat.eq_zero_or_pos v.toNat with h0 | hpos
  · exact .inl (by rw [decimalDigits, h0]; rfl)
  · exact .inr (head?_digitsUpTo (by omega) hpos)

theorem decimalDigits_ne_nil : decimalDigits v ≠ [] := by
  rcases decimalDigits_cases v with h | ⟨d, -, -, h⟩
  · simp [h]
  · intro hn
    simp [hn] at h

theorem decimalDigits_eq_of_head?_eq_zero (h : (decimalDigits v).head? = some 0x30) : decimalDigits v = [0x30] := by
  rcases decimalDigits_cases v with hz | ⟨d, h0, h10, hd⟩
  · exact hz
  · have he : digitByte d = 0x30 := Option.some.inj (hd.symm.trans h)
    have ht : 0x30 = 0x30 + d := (congrArg BitVec.toNat he).symm.trans (digitByte_toNat d h10)
    omega

end

/-- Settles O41: the printed digits and the newline are a line the parser accepts, with the value of the digits. -/
theorem printedNumberReadsBack : Obligations.PrintedNumberReadsBack := fun allowPlus v =>
  (parseU16_eq_some_iff allowPlus _ v).2 ⟨[], [], decimalDigits v, [0x0A], rfl, nofun, by decide, .inl rfl,
    decimalDigits_ne_nil v, isDigit_of_mem_decimalDigits v, decimalValue_decimalDigits v⟩

end Sys2Proof.Machine
end

section
/-! SUPPORT. The trap services one by one: what each handler answers and the frames they share, the port under every
instruction, and the end of a run by HALT (spec/45_trap_services.md R119 to R135). -/

namespace Sys2Proof.Machine

/-! ## OUT and OUTU16: output appended -/

/-- A handler that appends to the output completes, with nothing else changed (R125). -/
theorem exists_writesOnly {i : Instr} {s : State} {events : List OutputEvent}
    (h : exec i s = .next { s with output := s.output ++ events }) :
    ∃ t, exec i s = .next t ∧ t.output = s.output ++ events ∧ InputSame s t ∧ ServesOnly [] s t :=
  ⟨_, h, rfl, ⟨rfl, rfl, rfl⟩, output_servesOnly s _⟩

section
variable (s : State)

theorem exec_out : exec (.trap 0x21) s =
    .next { s with output := s.output ++ [.byte (lowByte (s.reg .r0)), .flush] } := by
  rw [exec, execTrap_out, serviceOut]
  simp [State.ioWriteByte, State.ioFlush]

theorem exec_outu16 : exec (.trap 0x27) s =
    .next { s with output := s.output ++ ((decimalDigits (s.reg .r0)).map .byte ++ [.byte newline, .flush]) } := by
  rw [exec, execTrap_outu16, serviceOutu16]
  simp [State.ioWriteBytes, State.ioWriteByte, State.ioFlush]

end

/-- Settles O33: the low byte and a flush are what `exec_out` appends. -/
theorem outWritesTheLowByte : Obligations.OutWritesTheLowByte := by
  intro s
  obtain ⟨t, hx, ho, hframe⟩ := exists_writesOnly (exec_out s)
  exact ⟨t, lowByte (s.reg .r0), hx, lowField_toNat _ 8, ho, hframe⟩

/-- Settles O40: the digits of `exec_outu16`, with what the laws of the conversion say of them. -/
theorem outu16PrintsUnsignedDecimal : Obligations.Outu16PrintsUnsignedDecimal := by
  intro s
  obtain ⟨t, hx, ho, hframe⟩ := exists_writesOnly (exec_outu16 s)
  exact ⟨t, decimalDigits (s.reg .r0), hx, ho.trans (List.append_assoc _ _ _).symm, decimalDigits_ne_nil _,
    fun b hb => (isDigit_iff b).1 (isDigit_of_mem_decimalDigits _ b hb), decimalValue_decimalDigits _,
    decimalDigits_eq_of_head?_eq_zero _, hframe⟩

/-! ## INU16: a line read -/

section
variable {s t : State} {line : List Byte}

theorem exec_inu16_of_blocked (h : ioReadLine s = .blocked) : exec (.trap 0x26) s = .fault .blockedOnInput := by
  rw [exec, execTrap_inu16, serviceInu16, h]

theorem exec_inu16_of_fail (h : ioReadLine s = .fail t) : exec (.trap 0x26) s = .next t := by
  rw [exec, execTrap_inu16, serviceInu16, h]

theorem exec_inu16_of_parse_none (h : ioReadLine s = .ok line t)
    (hp : parseU16 s.config.inu16AllowPlus line = none) : exec (.trap 0x26) s = .next t := by
  rw [exec, execTrap_inu16, serviceInu16, h]
  simp only [hp]

theorem exec_inu16_of_parse_some {n : Word} (h : ioReadLine s = .ok line t)
    (hp : parseU16 s.config.inu16AllowPlus line = some n) : exec (.trap 0x26) s = .next (t.setReg .r0 n) := by
  rw [exec, execTrap_inu16, serviceInu16, h]
  simp only [hp]

theorem ServesOnly.mono {rs rs' : List Reg} (h : ServesOnly rs s t) (hs : rs ⊆ rs') : ServesOnly rs' s t :=
  ⟨fun r hr => h.1 r fun hm => hr (hs hm), h.2⟩

theorem withInput_setReg_servesOnly (input : List InputItem) (tail : InputTail) (draws : Nat) (r : Reg) (n : Word) :
    ServesOnly [r] s ((s.withInput input tail draws).setReg r n) :=
  ⟨fun q hq => State.setReg_reg_other _ r q n (by simpa using hq), rfl, rfl, fun _ => rfl, rfl, rfl, rfl⟩

/-- Where the listed input stops inside a line and nothing is known of the rest, the read finds no answer, or consumes
the listed bytes and fails or gives a line that begins with them (R121; log entry 5). -/
theorem ioReadLine_unlisted {body : List Byte} (hb : newline ∉ body) (hi : s.input = body.map .byte)
    (ht : s.inputTail = .unknown) :
    ioReadLine s = .blocked ∨
    ∃ tail draws, ioReadLine s = .fail (s.withInput [] tail draws) ∨
      ∃ more, ioReadLine s = .ok (body ++ more) (s.withInput [] tail draws) := by
  rw [ioReadLine, hi, scanLine_cut body hb, ht]
  simp only
  cases Config.freeLineDraw s.draws with
  | never => exact .inl rfl
  | fail => exact .inr ⟨.unknown, s.draws + 1, .inl (by rw [State.withInput, ← ht])⟩
  | ok raw =>
    simp only
    split
    · exact .inr ⟨_, _, .inl rfl⟩
    · exact .inr ⟨_, _, .inr ⟨_, rfl⟩⟩

end

/-- Settles O38: the three answers of `ioReadLine_unlisted`, and the two of the parser where a line was read. -/
theorem inu16OnAnUnlistedLine : Obligations.Inu16OnAnUnlistedLine := by
  intro s body hb hi ht
  rcases ioReadLine_unlisted hb hi ht with h | ⟨tail, draws, h | ⟨more, h⟩⟩
  · exact .inr (exec_inu16_of_blocked h)
  · exact .inl ⟨_, exec_inu16_of_fail h, rfl, rfl, (withInput_servesOnly ..).mono (by simp), .inl rfl⟩
  · cases hp : parseU16 s.config.inu16AllowPlus (body ++ more) with
    | none =>
      exact .inl ⟨_, exec_inu16_of_parse_none h hp, rfl, rfl, (withInput_servesOnly ..).mono (by simp), .inl rfl⟩
    | some n =>
      refine .inl ⟨_, exec_inu16_of_parse_some h hp, rfl, rfl, withInput_setReg_servesOnly .., .inr ⟨more, ?_⟩⟩
      rw [State.setReg_reg_same]
      exact hp

/-! ## PUTSP and HALT -/

theorem exec_putsp (s : State) : exec (.trap 0x24) s = .next s := by
  rw [exec, execTrap_putsp, servicePutsp, State.noOperation_eq]

theorem exec_halt (s : State) : exec (.trap 0x25) s = .next s.clearRun := by
  rw [exec, execTrap_halt, serviceHalt]

section
variable {s : State}

theorem loopState_clearRun (hs : s.stop = none) : s.clearRun.loopState = .halted := by
  simp [State.loopState, hs]

theorem loopState_clearRun_ne_running : s.clearRun.loopState ≠ .running := by
  simp [loopState_running]

theorem stopCause_clearRun (hs : s.stop = none) : s.clearRun.stopCause = some (0, none) := by
  simp [State.stopCause, hs]

/-- In `Halted` and in `Faulted` no step is performed (R93, R138; log entry 8). -/
theorem step_of_stopped (h : s.loopState ≠ .running) : step s = .next s := by
  cases hl : s.loopState with
  | running => exact absurd hl h
  | halted => rw [step, hl]
  | faulted => rw [step, hl]

/-- A state whose step answers it again is answered after any number of steps. -/
theorem run_of_step_eq_self {M : Host.Core} {x : M.State} (h : M.step x = .next x) (k : Nat) :
    M.run k x = .next x := by
  induction k with
  | zero => rfl
  | succ k ih =>
    rw [Host.Core.run, h]
    exact ih

end

/-- Settles O36: the two handlers as they are, and a state with RUN = 0 is not `Running`. -/
theorem putspDoesNothingAndHaltClearsRun : Obligations.PutspDoesNothingAndHaltClearsRun := fun s =>
  ⟨exec_putsp s, accesses_trap_of_ne s (by decide), s.clearRun, exec_halt s, rfl, loopState_clearRun,
    stepAccesses_of_stopped loopState_clearRun_ne_running⟩

/-- Settles O47: the step ends in `State.clearRun` of the incremented state, where no further step is performed. -/
theorem haltEndsTheRun : Obligations.HaltEndsTheRun := by
  intro s hr hs hd
  refine ⟨s.incrementPc.clearRun, ?_, rfl, loopState_clearRun hs, stopCause_clearRun hs,
    run_of_step_eq_self (M := core) (step_of_stopped loopState_clearRun_ne_running)⟩
  rw [step_of_running s hr hs, hd, exec_halt]

/-! ## The port under every instruction (R119, R125) -/

section
variable {s t : State} {i : Instr}

theorem Effect.portSame (h : Effect s i t) (hi : isTrap i = false) : PortSame s t := by
  cases h with
  | reads => cases hi
  | readsNothing => cases hi
  | writes => cases hi
  | halts => cases hi
  | stops => cases hi
  | _ => exact ⟨⟨rfl, rfl, rfl⟩, rfl⟩

theorem Effect.output_eq_append (h : Effect s i t) : ∃ events, t.output = s.output ++ events := by
  cases h with
  | reads input tail draws events => exact ⟨events, rfl⟩
  | writes events => exact ⟨events, rfl⟩
  | _ => exact ⟨[], (List.append_nil s.output).symm⟩

end

/-- Settles O55: every shape of `Effect` but those of a TRAP keeps the port, and each appends to the output. -/
theorem onlyTrapUsesThePort : Obligations.OnlyTrapUsesThePort := fun i s t h =>
  ⟨(exec_effect i s t h).portSame, (exec_effect i s t h).output_eq_append⟩

end Sys2Proof.Machine
end

section
/-! SUPPORT. A stopped CORE, and the four services that read a line, read a byte or write a string: what each answers
for each thing the input device or the memory can do (spec/45_trap_services.md R119 to R132; spec/60_exceptions.md R137,
R138). -/

namespace Sys2Proof.Machine

/-! ## A stopped CORE (R93, R138) -/

section
variable {s : State}

theorem loopState_ne_running_of_stopped (h : s.run = false ∨ s.stop ≠ none) : s.loopState ≠ .running := by
  rw [Ne, loopState_running]
  rintro ⟨hr, hs⟩
  rcases h with h | h
  · exact Bool.false_ne_true (h.symm.trans hr)
  · exact h hs

@[simp] theorem loopState_raiseStop (info : StopInfo) : (s.raiseStop info).loopState = .faulted := rfl

/-- The cause code of R139. -/
theorem stopCause_raiseStop (v : BitVec 8) : (s.raiseStop (.trapVectorUnmapped v)).stopCause = some (1, some v) := rfl

end

/-- Settles O46: a state with RUN = 0 or with stop information is not `Running`. -/
theorem stoppedCoreChangesNothing : Obligations.StoppedCoreChangesNothing := fun _ h =>
  ⟨step_of_stopped (loopState_ne_running_of_stopped h), stepAccesses_of_stopped (loopState_ne_running_of_stopped h)⟩

/-- Settles O43: the step ends in `State.raiseStop` of the incremented state, where no further step is performed. -/
theorem unmappedTrapStopsTheCore : Obligations.UnmappedTrapStopsTheCore := by
  intro v s hr hs hf hv hd
  have hl : (s.incrementPc.raiseStop (.trapVectorUnmapped v)).loopState ≠ .running := by simp
  refine ⟨s.incrementPc.raiseStop (.trapVectorUnmapped v), ?_, rfl, stopCause_raiseStop v, hr, loopState_raiseStop _,
    step_of_stopped hl, stepAccesses_of_stopped hl⟩
  rw [step_of_running s hr hs, hd]
  exact (unmappedTrap v s.incrementPc hv).2 hf

/-! ## PUTS: a string written (R128) -/

/-- What PUTS adds to the output for the `n` words from R0 up: the low byte of each, the address modulo 65536. -/
def State.stringEvents (s : State) (n : Nat) : List OutputEvent :=
  (List.range n).map fun k => .byte ((s.memRead (s.reg .r0 + BitVec.ofNat 16 k)).setWidth 8)

theorem lowByte_eq_setWidth (v : Word) : lowByte v = v.setWidth 8 :=
  BitVec.eq_of_toNat_eq ((lowField_toNat v 8).trans (BitVec.toNat_setWidth 8 v).symm)

section
variable (s : State) (n : Nat)

theorem length_stringEvents : (s.stringEvents n).length = n := by simp [State.stringEvents]

theorem map_stringBytes_eq_stringEvents : (stringBytes s.mem n (s.reg .r0)).map .byte = s.stringEvents n := by
  simp only [stringBytes_eq_map, List.map_map, lowByte_eq_setWidth]
  rfl

theorem insidePuts_eq_output : s.insidePuts n = { s with output := s.output ++ s.stringEvents n } := by
  rw [State.insidePuts_eq, State.ioWriteBytes, map_stringBytes_eq_stringEvents]

variable {s n}

theorem exec_puts_of_stringLength_eq_some (h : stringLength s.mem 65536 (s.reg .r0) = some n) :
    exec (.trap 0x22) s = .next (s.insidePuts n).ioFlush := by
  rw [exec, execTrap_puts, servicePuts, h]

theorem exec_puts_of_stringLength_eq_none (h : stringLength s.mem 65536 (s.reg .r0) = none) :
    exec (.trap 0x22) s = .fault .endlessPuts := by
  rw [exec, execTrap_puts, servicePuts, h]

/-- The scan of 65536 words meets a word 0x0000 wherever it stands. -/
theorem exec_puts_completes {a : Word} (h : s.memRead a = 0) : ∃ t, exec (.trap 0x22) s = .next t := by
  cases hl : stringLength s.mem 65536 (s.reg .r0) with
  | some k => exact ⟨_, exec_puts_of_stringLength_eq_some hl⟩
  | none => exact absurd h (memRead_ne_zero_of_stringLength_eq_none hl a)

end

/-- Settles O34: the scan finds the first word 0x0000 if memory holds one, and the output of `State.insidePuts` is the
bytes of the words before it. -/
theorem putsWritesTheString : Obligations.PutsWritesTheString := by
  refine ⟨fun s n hn hne h0 => ?_, fun s a => exec_puts_completes, fun s hne => ?_, fun s n =>
    ⟨insidePuts_eq_output s n, ?_⟩⟩
  · have hl := stringLength_eq_some s.mem n 65536 (s.reg .r0) hn hne h0
    refine ⟨_, exec_puts_of_stringLength_eq_some hl, rfl, ?_, ⟨rfl, rfl, rfl⟩, output_servesOnly s _⟩
    rw [insidePuts_eq_output]
    rfl
  · exact exec_puts_of_stringLength_eq_none (stringLength_eq_none s.mem hne 65536 _)
  · rw [insidePuts_eq_output, List.length_append, length_stringEvents]

/-! ## GETC and IN: a byte read (R120, R126, R129) -/

section
variable {s : State} {b : Byte} {rest : List InputItem}

theorem ioReadByte_of_byte (hi : s.input = .byte b :: rest) :
    ioReadByte s = .ok b (s.withInput rest s.inputTail s.draws) := by
  rw [ioReadByte, hi]
  rfl

theorem ioReadByte_of_failure (hi : s.input = .failure :: rest) :
    ioReadByte s = .fail (s.withInput rest s.inputTail s.draws) := by
  rw [ioReadByte, hi]
  rfl

theorem ioReadByte_of_ended (hi : s.input = []) (ht : s.inputTail = .ended) : ioReadByte s = .fail s := by
  rw [ioReadByte, hi, ht]

theorem ioReadByte_of_stalled (hi : s.input = []) (ht : s.inputTail = .stalled) : ioReadByte s = .blocked := by
  rw [ioReadByte, hi, ht]

/-- Where nothing is listed and nothing is known, the answer is one of those the device can give, a free draw (log
entry 4). -/
theorem ioReadByte_of_unknown (hi : s.input = []) (ht : s.inputTail = .unknown) :
    ioReadByte s = .blocked ∨ ∃ draws, ioReadByte s = .fail (s.withInput [] .unknown draws) ∨
      ∃ b, ioReadByte s = .ok b (s.withInput [] .unknown draws) := by
  rw [ioReadByte, hi, ht]
  simp only
  cases Config.freeByteDraw s.draws with
  | never => exact .inl rfl
  | fail => exact .inr ⟨_, .inl rfl⟩
  | ok b => exact .inr ⟨_, .inr ⟨b, rfl⟩⟩

end

/-- The trap of vector `v` reads one byte, adds `echo` of it to the output and defines R0 as the byte; a read that fails
ends the step with nothing else done, and one that never returns is the fault. -/
structure ByteService (v : BitVec 8) (echo : Byte → List OutputEvent) : Prop where
  ok {s t : State} {b : Byte} (h : ioReadByte s = .ok b t) :
    exec (.trap v) s = .next ({ t with output := t.output ++ echo b }.setReg .r0 (zext b))
  fail {s t : State} (h : ioReadByte s = .fail t) : exec (.trap v) s = .next t
  blocked {s : State} (h : ioReadByte s = .blocked) : exec (.trap v) s = .fault .blockedOnInput

/-- GETC does not echo (R126). -/
theorem byteService_getc : ByteService 0x20 fun _ => [] where
  ok h := by
    rw [exec, execTrap_getc, serviceGetc, h]
    simp
  fail h := by rw [exec, execTrap_getc, serviceGetc, h]
  blocked h := by rw [exec, execTrap_getc, serviceGetc, h]

/-- IN echoes the byte and flushes (R129). -/
theorem byteService_in : ByteService 0x23 fun b => [.byte b, .flush] where
  ok h := by
    rw [exec, execTrap_in, serviceIn, h]
    simp [State.ioWriteByte, State.ioFlush]
  fail h := by rw [exec, execTrap_in, serviceIn, h]
  blocked h := by rw [exec, execTrap_in, serviceIn, h]

section
variable {v : BitVec 8} {echo : Byte → List OutputEvent} {s : State} {b : Byte} {input : List InputItem}
  {tail : InputTail} {draws : Nat}

theorem ByteService.exists_of_ok (hv : ByteService v echo)
    (h : ioReadByte s = .ok b (s.withInput input tail draws)) :
    ∃ t, exec (.trap v) s = .next t ∧ (t.reg .r0).toNat = b.toNat ∧ t.input = input ∧ t.inputTail = tail ∧
      t.draws = draws ∧ t.output = s.output ++ echo b ∧ ServesOnly [.r0] s t := by
  refine ⟨_, hv.ok h, ?_, rfl, rfl, rfl, rfl, withInput_setReg_servesOnly input tail draws .r0 (zext b)⟩
  rw [State.setReg_reg_same, toNat_zext (by decide)]

theorem ByteService.exists_of_unknown (hv : ByteService v echo) (hi : s.input = []) (ht : s.inputTail = .unknown) :
    (∃ (b : Byte) (t : State), exec (.trap v) s = .next t ∧ (t.reg .r0).toNat = b.toNat ∧ t.input = [] ∧
      t.inputTail = .unknown ∧ t.output = s.output ++ echo b ∧ ServesOnly [.r0] s t) ∨
    (∃ t, exec (.trap v) s = .next t ∧ t.input = [] ∧ t.inputTail = .unknown ∧ t.output = s.output ∧
      ServesOnly [] s t) ∨
    exec (.trap v) s = .fault .blockedOnInput := by
  rcases ioReadByte_of_unknown hi ht with h | ⟨draws, h | ⟨b, h⟩⟩
  · exact .inr (.inr (hv.blocked h))
  · exact .inr (.inl ⟨_, hv.fail h, rfl, rfl, rfl, withInput_servesOnly ..⟩)
  · obtain ⟨t, hx, hr, hin, htail, -, hout, hframe⟩ := hv.exists_of_ok h
    exact .inl ⟨b, t, hx, hr, hin, htail, hout, hframe⟩

end

/-- Settles O35: what `byteService_in` says, for each answer of `ioReadByte`. -/
theorem inReadsAndEchoesAByte : Obligations.InReadsAndEchoesAByte := fun _ =>
  ⟨fun _ _ hi => byteService_in.exists_of_ok (ioReadByte_of_byte hi),
    fun _ hi => byteService_in.fail (ioReadByte_of_failure hi),
    fun hi ht => byteService_in.fail (ioReadByte_of_ended hi ht),
    fun hi ht => byteService_in.blocked (ioReadByte_of_stalled hi ht),
    byteService_in.exists_of_unknown⟩

/-- Settles O32: what `byteService_getc` says, for each answer of `ioReadByte`; its echo is empty. -/
theorem getcReadsAByte : Obligations.GetcReadsAByte := fun _ =>
  ⟨fun _ _ hi => by simpa only [List.append_nil] using byteService_getc.exists_of_ok (ioReadByte_of_byte hi),
    fun _ hi => byteService_getc.fail (ioReadByte_of_failure hi),
    fun hi ht => byteService_getc.fail (ioReadByte_of_ended hi ht),
    fun hi ht => byteService_getc.blocked (ioReadByte_of_stalled hi ht),
    fun hi ht => by simpa only [List.append_nil] using byteService_getc.exists_of_unknown hi ht⟩

/-! ## INU16: a listed line read (R121, R132) -/

section
variable {s : State} {body : List Byte} (hb : newline ∉ body)
include hb

theorem ioReadLine_of_complete {rest : List InputItem} (hi : s.input = (body ++ [newline]).map .byte ++ rest) :
    ioReadLine s = .ok (body ++ [newline]) { s with input := rest } := by
  rw [ioReadLine, hi, scanLine_complete body rest hb]

theorem ioReadLine_of_failed {rest : List InputItem} (hi : s.input = body.map .byte ++ .failure :: rest) :
    ioReadLine s = .fail { s with input := rest } := by
  rw [ioReadLine, hi, scanLine_failed body rest hb]

/-- A line that the end of the input cuts short has its bytes, but an input already at its end is a failure. -/
theorem ioReadLine_of_ended (hi : s.input = body.map .byte) (ht : s.inputTail = .ended) :
    ioReadLine s = if body = [] then .fail { s with input := [] } else .ok body { s with input := [] } := by
  rw [ioReadLine, hi, scanLine_cut body hb, ht]

theorem ioReadLine_of_stalled (hi : s.input = body.map .byte) (ht : s.inputTail = .stalled) :
    ioReadLine s = .blocked := by
  rw [ioReadLine, hi, scanLine_cut body hb, ht]

end

/-- Settles O37: the line that is read is parsed, and the failures and the fault are those of `ioReadLine`. -/
theorem inu16ReadsALine : Obligations.Inu16ReadsALine := by
  intro s body rest hb
  refine ⟨fun hi => ?_, fun hi => exec_inu16_of_fail (ioReadLine_of_failed hb hi), fun hi ht => ?_,
    fun hi ht => exec_inu16_of_blocked (ioReadLine_of_stalled hb hi ht)⟩
  · have hread := ioReadLine_of_complete hb hi
    exact ⟨fun n => exec_inu16_of_parse_some hread, exec_inu16_of_parse_none hread⟩
  · have hread := ioReadLine_of_ended hb hi ht
    by_cases hne : body = []
    · rw [if_pos hne] at hread
      exact ⟨fun n h => absurd hne h, fun _ => exec_inu16_of_fail hread⟩
    · rw [if_neg hne] at hread
      exact ⟨fun n _ => exec_inu16_of_parse_some hread,
        fun h => exec_inu16_of_parse_none hread (h.resolve_left hne)⟩

end Sys2Proof.Machine
end
